-- ==== Sys2Proof/Word.lean ====
section
/-! DEFINITION. Word.lean: the widths the spec fixes (00_scope.md R6, R8, R9). -/

namespace Sys2Proof

/-- A machine word: a register value, an address, the pc, an instruction word (XLEN = ILEN = 32, R6). -/
abbrev Word := BitVec 32

/-- The addressable unit of memory (R6). -/
abbrev Byte := BitVec 8

/-- A general register index, "a 5-bit number (`Fin 32`)" (10_state.md R24). -/
abbrev Reg := Fin 32

/-- The index of a register as the 5 bits of an instruction field. -/
abbrev Reg.bits (r : Reg) : BitVec 5 := BitVec.ofFin r

end Sys2Proof
end

