-- ==== Sys2Proof/Machine/Bits.lean ====
section
/-! DEFINITION. Machine/Bits.lean: bit fields, extension and byte order. Notation of 00_scope.md R8 to R10; fields of
30_encoding.md R81; immediates of R88; byte order of 20_memory.md R51. -/

namespace Sys2Proof.Bits

/-- `sext_32(v)` (R10). -/
def sext {n : Nat} (v : BitVec n) : Word := v.signExtend 32

/-- `zext_32(v)` (R10). -/
def zext {n : Nat} (v : BitVec n) : Word := v.setWidth 32

/-- Bits 6:0 (R81). -/
def opcode (w : Word) : BitVec 7 := w.extractLsb' 0 7

/-- Bits 11:7 (R81). -/
def rd (w : Word) : Reg := (w.extractLsb' 7 5).toFin

/-- Bits 14:12 (R81). -/
def funct3 (w : Word) : BitVec 3 := w.extractLsb' 12 3

/-- Bits 19:15 (R81). -/
def rs1 (w : Word) : Reg := (w.extractLsb' 15 5).toFin

/-- Bits 24:20 (R81). -/
def rs2 (w : Word) : Reg := (w.extractLsb' 20 5).toFin

/-- Bits 31:25 (R81). -/
def funct7 (w : Word) : BitVec 7 := w.extractLsb' 25 7

/-- The shift amount of a shift-immediate word, bits 24:20 (R91). -/
def shamt (w : Word) : BitVec 5 := w.extractLsb' 20 5

/-- The I-immediate (R88). -/
def immI (w : Word) : Word := sext (w.extractLsb' 20 12)

/-- The S-immediate (R88). -/
def immS (w : Word) : Word := sext (w.extractLsb' 25 7 ++ w.extractLsb' 7 5)

/-- The B-immediate (R88). -/
def immB (w : Word) : Word :=
  sext (w.extractLsb' 31 1 ++ w.extractLsb' 7 1 ++ w.extractLsb' 25 6 ++ w.extractLsb' 8 4 ++ 0#1)

/-- The U-immediate (R88). -/
def immU (w : Word) : Word := w.extractLsb' 12 20 ++ 0#12

/-- The J-immediate (R88). -/
def immJ (w : Word) : Word :=
  sext (w.extractLsb' 31 1 ++ w.extractLsb' 12 8 ++ w.extractLsb' 20 1 ++ w.extractLsb' 21 10 ++ 0#1)

/-- The n lowest bytes of v, the least significant first: byte k is `v[8k+7:8k]` (R51, R57). -/
def leBytes {w : Nat} (n : Nat) (v : BitVec w) : List Byte :=
  (List.range n).map fun k => v.extractLsb' (8 * k) 8

/-- The value whose bytes, the least significant first, are the list (R51, R56). -/
def ofLE (w : Nat) : List Byte → BitVec w
  | [] => 0
  | b :: bs => (ofLE w bs <<< 8) ||| b.setWidth w

end Sys2Proof.Bits
end

