-- ==== Sys2Proof/WellFormed.lean ====
section
/-! DEFINITION. WellFormed.lean: the instructions a word can encode: each immediate lies in the range its format gives
it (30_encoding.md R88). Registers and shift amounts are in range by their types (R24, R91). -/

namespace Sys2Proof

/-- An I- or S-immediate: -2048 to 2047 (R88). -/
def immFits12 (imm : Word) : Bool := decide (-2048 ≤ imm.toInt ∧ imm.toInt ≤ 2047)

/-- A B-immediate: -4096 to 4094, even (R88, R89). -/
def immFitsB (imm : Word) : Bool :=
  decide (-4096 ≤ imm.toInt ∧ imm.toInt ≤ 4094 ∧ imm.toNat % 2 = 0)

/-- A U-immediate: a multiple of 4096 (R88). -/
def immFitsU (imm : Word) : Bool := decide (imm.toNat % 4096 = 0)

/-- A J-immediate: -1048576 to 1048574, even (R88, R89). -/
def immFitsJ (imm : Word) : Bool :=
  decide (-1048576 ≤ imm.toInt ∧ imm.toInt ≤ 1048574 ∧ imm.toNat % 2 = 0)

/-- Some word encodes the instruction. -/
def Instr.wf : Instr → Bool
  | .lui _ imm | .auipc _ imm => immFitsU imm
  | .jal _ imm => immFitsJ imm
  | .beq _ _ imm | .bne _ _ imm | .blt _ _ imm | .bge _ _ imm | .bltu _ _ imm | .bgeu _ _ imm => immFitsB imm
  | .jalr _ _ imm => immFits12 imm
  | .lb _ _ imm | .lh _ _ imm | .lw _ _ imm | .lbu _ _ imm | .lhu _ _ imm => immFits12 imm
  | .sb _ _ imm | .sh _ _ imm | .sw _ _ imm => immFits12 imm
  | .addi _ _ imm | .slti _ _ imm | .sltiu _ _ imm | .xori _ _ imm | .ori _ _ imm | .andi _ _ imm => immFits12 imm
  | .slli _ _ _ | .srli _ _ _ | .srai _ _ _ => true
  | .add _ _ _ | .sub _ _ _ | .sll _ _ _ | .slt _ _ _ | .sltu _ _ _ | .xor _ _ _ | .srl _ _ _ | .sra _ _ _
  | .or _ _ _ | .and _ _ _ => true
  | .fence _ _ imm => immFits12 imm
  | .ecall | .ebreak => true

end Sys2Proof
end

