-- ==== Sys2Proof/Decode.lean ====
section
/-! DEFINITION. Decode.lean: the decode unit of 30_encoding.md (R92 to R97, R100), then the encoder (R93). -/

namespace Sys2Proof

/-! ### The table of R95 -/

/-- The column "match" of the table of 30_encoding.md R95. -/
def Mnemonic.matchWord : Mnemonic → Word
  | .lui => 0x00000037#32
  | .auipc => 0x00000017#32
  | .jal => 0x0000006F#32
  | .jalr => 0x00000067#32
  | .beq => 0x00000063#32
  | .bne => 0x00001063#32
  | .blt => 0x00004063#32
  | .bge => 0x00005063#32
  | .bltu => 0x00006063#32
  | .bgeu => 0x00007063#32
  | .lb => 0x00000003#32
  | .lh => 0x00001003#32
  | .lw => 0x00002003#32
  | .lbu => 0x00004003#32
  | .lhu => 0x00005003#32
  | .sb => 0x00000023#32
  | .sh => 0x00001023#32
  | .sw => 0x00002023#32
  | .addi => 0x00000013#32
  | .slti => 0x00002013#32
  | .sltiu => 0x00003013#32
  | .xori => 0x00004013#32
  | .ori => 0x00006013#32
  | .andi => 0x00007013#32
  | .slli => 0x00001013#32
  | .srli => 0x00005013#32
  | .srai => 0x40005013#32
  | .add => 0x00000033#32
  | .sub => 0x40000033#32
  | .sll => 0x00001033#32
  | .slt => 0x00002033#32
  | .sltu => 0x00003033#32
  | .xor => 0x00004033#32
  | .srl => 0x00005033#32
  | .sra => 0x40005033#32
  | .or => 0x00006033#32
  | .and => 0x00007033#32
  | .fence => 0x0000000F#32
  | .ecall => 0x00000073#32
  | .ebreak => 0x00100073#32

/-- The column "mask" of the table of R95. -/
def Mnemonic.mask : Mnemonic → Word
  | .lui | .auipc | .jal => 0x0000007F#32
  | .jalr | .beq | .bne | .blt | .bge | .bltu | .bgeu | .lb | .lh | .lw | .lbu | .lhu | .sb | .sh | .sw
  | .addi | .slti | .sltiu | .xori | .ori | .andi | .fence => 0x0000707F#32
  | .slli | .srli | .srai | .add | .sub | .sll | .slt | .sltu | .xor | .srl | .sra | .or | .and => 0xFE00707F#32
  | .ecall | .ebreak => 0xFFFFFFFF#32

/-- The column "format" of the table of R95. -/
def Mnemonic.format : Mnemonic → Format
  | .lui | .auipc => .U
  | .jal => .J
  | .jalr | .lb | .lh | .lw | .lbu | .lhu | .addi | .slti | .sltiu | .xori | .ori | .andi | .slli | .srli
  | .srai | .fence | .ecall | .ebreak => .I
  | .beq | .bne | .blt | .bge | .bltu | .bgeu => .B
  | .sb | .sh | .sw => .S
  | .add | .sub | .sll | .slt | .sltu | .xor | .srl | .sra | .or | .and => .R

/-- The column "opcode" of the table of R95 (R94). -/
def Mnemonic.opcode : Mnemonic → BitVec 7
  | .lui => 0b0110111#7
  | .auipc => 0b0010111#7
  | .jal => 0b1101111#7
  | .jalr => 0b1100111#7
  | .beq | .bne | .blt | .bge | .bltu | .bgeu => 0b1100011#7
  | .lb | .lh | .lw | .lbu | .lhu => 0b0000011#7
  | .sb | .sh | .sw => 0b0100011#7
  | .addi | .slti | .sltiu | .xori | .ori | .andi | .slli | .srli | .srai => 0b0010011#7
  | .add | .sub | .sll | .slt | .sltu | .xor | .srl | .sra | .or | .and => 0b0110011#7
  | .fence => 0b0001111#7
  | .ecall | .ebreak => 0b1110011#7

/-- The column "funct3" of the table of R95; absent in the U and J formats (R92). -/
def Mnemonic.funct3 : Mnemonic → Option (BitVec 3)
  | .lui | .auipc | .jal => none
  | .jalr | .beq | .lb | .sb | .addi | .add | .sub | .fence | .ecall | .ebreak => some 0b000#3
  | .bne | .lh | .sh | .slli | .sll => some 0b001#3
  | .blt | .lbu | .xori | .xor => some 0b100#3
  | .bge | .lhu | .srli | .srai | .srl | .sra => some 0b101#3
  | .bltu | .ori | .or => some 0b110#3
  | .bgeu | .andi | .and => some 0b111#3
  | .lw | .sw | .slti | .slt => some 0b010#3
  | .sltiu | .sltu => some 0b011#3

/-- The column "funct7" of the table of R95; only the R format has the field (R92). -/
def Mnemonic.funct7 : Mnemonic → Option (BitVec 7)
  | .lui | .auipc | .jal | .jalr | .beq | .bne | .blt | .bge | .bltu | .bgeu | .lb | .lh | .lw | .lbu | .lhu
  | .sb | .sh | .sw | .addi | .slti | .sltiu | .xori | .ori | .andi | .slli | .srli | .srai | .fence | .ecall
  | .ebreak => none
  | .add | .sll | .slt | .sltu | .xor | .srl | .or | .and => some 0b0000000#7
  | .sub | .sra => some 0b0100000#7
/-- The name of an instruction's row (R95). -/
def Instr.mnemonic : Instr → Mnemonic
  | .lui _ _ => .lui
  | .auipc _ _ => .auipc
  | .jal _ _ => .jal
  | .jalr _ _ _ => .jalr
  | .beq _ _ _ => .beq
  | .bne _ _ _ => .bne
  | .blt _ _ _ => .blt
  | .bge _ _ _ => .bge
  | .bltu _ _ _ => .bltu
  | .bgeu _ _ _ => .bgeu
  | .lb _ _ _ => .lb
  | .lh _ _ _ => .lh
  | .lw _ _ _ => .lw
  | .lbu _ _ _ => .lbu
  | .lhu _ _ _ => .lhu
  | .sb _ _ _ => .sb
  | .sh _ _ _ => .sh
  | .sw _ _ _ => .sw
  | .addi _ _ _ => .addi
  | .slti _ _ _ => .slti
  | .sltiu _ _ _ => .sltiu
  | .xori _ _ _ => .xori
  | .ori _ _ _ => .ori
  | .andi _ _ _ => .andi
  | .slli _ _ _ => .slli
  | .srli _ _ _ => .srli
  | .srai _ _ _ => .srai
  | .add _ _ _ => .add
  | .sub _ _ _ => .sub
  | .sll _ _ _ => .sll
  | .slt _ _ _ => .slt
  | .sltu _ _ _ => .sltu
  | .xor _ _ _ => .xor
  | .srl _ _ _ => .srl
  | .sra _ _ _ => .sra
  | .or _ _ _ => .or
  | .and _ _ _ => .and
  | .fence _ _ _ => .fence
  | .ecall => .ecall
  | .ebreak => .ebreak

/-! ### The fields of a decoded instruction (R92): a field its format lacks is absent -/

/-- The destination register, in the R, I, U and J formats. -/
def Instr.rd : Instr → Option Reg
  | .lui rd _ | .auipc rd _ | .jal rd _ | .jalr rd _ _ => some rd
  | .beq _ _ _ | .bne _ _ _ | .blt _ _ _ | .bge _ _ _ | .bltu _ _ _ | .bgeu _ _ _ => none
  | .lb rd _ _ | .lh rd _ _ | .lw rd _ _ | .lbu rd _ _ | .lhu rd _ _ => some rd
  | .sb _ _ _ | .sh _ _ _ | .sw _ _ _ => none
  | .addi rd _ _ | .slti rd _ _ | .sltiu rd _ _ | .xori rd _ _ | .ori rd _ _ | .andi rd _ _ => some rd
  | .slli rd _ _ | .srli rd _ _ | .srai rd _ _ => some rd
  | .add rd _ _ | .sub rd _ _ | .sll rd _ _ | .slt rd _ _ | .sltu rd _ _ => some rd
  | .xor rd _ _ | .srl rd _ _ | .sra rd _ _ | .or rd _ _ | .and rd _ _ => some rd
  | .fence rd _ _ => some rd
  | .ecall | .ebreak => some 0

/-- The first source register, in the R, I, S and B formats. -/
def Instr.rs1 : Instr → Option Reg
  | .lui _ _ | .auipc _ _ | .jal _ _ => none
  | .jalr _ rs1 _ => some rs1
  | .beq rs1 _ _ | .bne rs1 _ _ | .blt rs1 _ _ | .bge rs1 _ _ | .bltu rs1 _ _ | .bgeu rs1 _ _ => some rs1
  | .lb _ rs1 _ | .lh _ rs1 _ | .lw _ rs1 _ | .lbu _ rs1 _ | .lhu _ rs1 _ => some rs1
  | .sb rs1 _ _ | .sh rs1 _ _ | .sw rs1 _ _ => some rs1
  | .addi _ rs1 _ | .slti _ rs1 _ | .sltiu _ rs1 _ | .xori _ rs1 _ | .ori _ rs1 _ | .andi _ rs1 _ => some rs1
  | .slli _ rs1 _ | .srli _ rs1 _ | .srai _ rs1 _ => some rs1
  | .add _ rs1 _ | .sub _ rs1 _ | .sll _ rs1 _ | .slt _ rs1 _ | .sltu _ rs1 _ => some rs1
  | .xor _ rs1 _ | .srl _ rs1 _ | .sra _ rs1 _ | .or _ rs1 _ | .and _ rs1 _ => some rs1
  | .fence _ rs1 _ => some rs1
  | .ecall | .ebreak => some 0

/-- The second source register, in the R, S and B formats. -/
def Instr.rs2 : Instr → Option Reg
  | .lui _ _ | .auipc _ _ | .jal _ _ | .jalr _ _ _ => none
  | .beq _ rs2 _ | .bne _ rs2 _ | .blt _ rs2 _ | .bge _ rs2 _ | .bltu _ rs2 _ | .bgeu _ rs2 _ => some rs2
  | .lb _ _ _ | .lh _ _ _ | .lw _ _ _ | .lbu _ _ _ | .lhu _ _ _ => none
  | .sb _ rs2 _ | .sh _ rs2 _ | .sw _ rs2 _ => some rs2
  | .addi _ _ _ | .slti _ _ _ | .sltiu _ _ _ | .xori _ _ _ | .ori _ _ _ | .andi _ _ _ => none
  | .slli _ _ _ | .srli _ _ _ | .srai _ _ _ => none
  | .add _ _ rs2 | .sub _ _ rs2 | .sll _ _ rs2 | .slt _ _ rs2 | .sltu _ _ rs2 => some rs2
  | .xor _ _ rs2 | .srl _ _ rs2 | .sra _ _ rs2 | .or _ _ rs2 | .and _ _ rs2 => some rs2
  | .fence _ _ _ | .ecall | .ebreak => none

/-- The decoded immediate, in every format but R (R88). That of a shift-immediate is bits 31:25 above its shamt, so
0x400 + shamt for SRAI (40_alu.md R139); ECALL and EBREAK have 0 and 1. -/
def Instr.imm : Instr → Option Word
  | .lui _ imm | .auipc _ imm | .jal _ imm | .jalr _ _ imm => some imm
  | .beq _ _ imm | .bne _ _ imm | .blt _ _ imm | .bge _ _ imm | .bltu _ _ imm | .bgeu _ _ imm => some imm
  | .lb _ _ imm | .lh _ _ imm | .lw _ _ imm | .lbu _ _ imm | .lhu _ _ imm => some imm
  | .sb _ _ imm | .sh _ _ imm | .sw _ _ imm => some imm
  | .addi _ _ imm | .slti _ _ imm | .sltiu _ _ imm | .xori _ _ imm | .ori _ _ imm | .andi _ _ imm => some imm
  | .slli _ _ shamt | .srli _ _ shamt => some (shamt.setWidth 32)
  | .srai _ _ shamt => some (0x400#32 + shamt.setWidth 32)
  | .add _ _ _ | .sub _ _ _ | .sll _ _ _ | .slt _ _ _ | .sltu _ _ _ => none
  | .xor _ _ _ | .srl _ _ _ | .sra _ _ _ | .or _ _ _ | .and _ _ _ => none
  | .fence _ _ imm => some imm
  | .ecall => some 0
  | .ebreak => some 1

/-! ### Decode (R96) -/

/-- Why a word, or a list of bytes, is not an instruction. The hardware has one name for all the reasons a word can
have, DecodeError (R100); the finer names are the model's (notes/assumptions/25.md). -/
inductive DecodeReject where
  /-- Bits 6:0 are none of the eleven major opcodes (R94). -/
  | unknownOpcode
  /-- The opcode is used but not with this funct3. -/
  | unknownFunct3
  /-- The opcode is used but not with these bits 31:25 (and funct3). -/
  | unknownFunct7
  /-- Opcode SYSTEM, and neither ECALL's nor EBREAK's one word (R97). -/
  | unknownSystemWord
  /-- Fewer than the four bytes of an instruction; no word, so nothing the hardware decodes. -/
  | truncated
  deriving DecidableEq, Repr

/-- Class BRANCH (opcode 1100011). -/
def decodeBranch (w : Word) : Except DecodeReject Instr :=
  match Bits.funct3 w with
  | 0b000#3 => .ok (.beq (Bits.rs1 w) (Bits.rs2 w) (Bits.immB w))
  | 0b001#3 => .ok (.bne (Bits.rs1 w) (Bits.rs2 w) (Bits.immB w))
  | 0b100#3 => .ok (.blt (Bits.rs1 w) (Bits.rs2 w) (Bits.immB w))
  | 0b101#3 => .ok (.bge (Bits.rs1 w) (Bits.rs2 w) (Bits.immB w))
  | 0b110#3 => .ok (.bltu (Bits.rs1 w) (Bits.rs2 w) (Bits.immB w))
  | 0b111#3 => .ok (.bgeu (Bits.rs1 w) (Bits.rs2 w) (Bits.immB w))
  | _ => .error .unknownFunct3

/-- Class LOAD (opcode 0000011). -/
def decodeLoad (w : Word) : Except DecodeReject Instr :=
  match Bits.funct3 w with
  | 0b000#3 => .ok (.lb (Bits.rd w) (Bits.rs1 w) (Bits.immI w))
  | 0b001#3 => .ok (.lh (Bits.rd w) (Bits.rs1 w) (Bits.immI w))
  | 0b010#3 => .ok (.lw (Bits.rd w) (Bits.rs1 w) (Bits.immI w))
  | 0b100#3 => .ok (.lbu (Bits.rd w) (Bits.rs1 w) (Bits.immI w))
  | 0b101#3 => .ok (.lhu (Bits.rd w) (Bits.rs1 w) (Bits.immI w))
  | _ => .error .unknownFunct3

/-- Class STORE (opcode 0100011). -/
def decodeStore (w : Word) : Except DecodeReject Instr :=
  match Bits.funct3 w with
  | 0b000#3 => .ok (.sb (Bits.rs1 w) (Bits.rs2 w) (Bits.immS w))
  | 0b001#3 => .ok (.sh (Bits.rs1 w) (Bits.rs2 w) (Bits.immS w))
  | 0b010#3 => .ok (.sw (Bits.rs1 w) (Bits.rs2 w) (Bits.immS w))
  | _ => .error .unknownFunct3

/-- Class OP-IMM (opcode 0010011); bits 31:25 of the shift-immediates act as a funct7 (R91). -/
def decodeOpImm (w : Word) : Except DecodeReject Instr :=
  match Bits.funct3 w with
  | 0b000#3 => .ok (.addi (Bits.rd w) (Bits.rs1 w) (Bits.immI w))
  | 0b010#3 => .ok (.slti (Bits.rd w) (Bits.rs1 w) (Bits.immI w))
  | 0b011#3 => .ok (.sltiu (Bits.rd w) (Bits.rs1 w) (Bits.immI w))
  | 0b100#3 => .ok (.xori (Bits.rd w) (Bits.rs1 w) (Bits.immI w))
  | 0b110#3 => .ok (.ori (Bits.rd w) (Bits.rs1 w) (Bits.immI w))
  | 0b111#3 => .ok (.andi (Bits.rd w) (Bits.rs1 w) (Bits.immI w))
  | 0b001#3 =>
    match Bits.funct7 w with
    | 0b0000000#7 => .ok (.slli (Bits.rd w) (Bits.rs1 w) (Bits.shamt w))
    | _ => .error .unknownFunct7
  | 0b101#3 =>
    match Bits.funct7 w with
    | 0b0000000#7 => .ok (.srli (Bits.rd w) (Bits.rs1 w) (Bits.shamt w))
    | 0b0100000#7 => .ok (.srai (Bits.rd w) (Bits.rs1 w) (Bits.shamt w))
    | _ => .error .unknownFunct7
  | _ => .error .unknownFunct3

/-- Class OP (opcode 0110011). -/
def decodeOp (w : Word) : Except DecodeReject Instr :=
  match Bits.funct7 w, Bits.funct3 w with
  | 0b0000000#7, 0b000#3 => .ok (.add (Bits.rd w) (Bits.rs1 w) (Bits.rs2 w))
  | 0b0100000#7, 0b000#3 => .ok (.sub (Bits.rd w) (Bits.rs1 w) (Bits.rs2 w))
  | 0b0000000#7, 0b001#3 => .ok (.sll (Bits.rd w) (Bits.rs1 w) (Bits.rs2 w))
  | 0b0000000#7, 0b010#3 => .ok (.slt (Bits.rd w) (Bits.rs1 w) (Bits.rs2 w))
  | 0b0000000#7, 0b011#3 => .ok (.sltu (Bits.rd w) (Bits.rs1 w) (Bits.rs2 w))
  | 0b0000000#7, 0b100#3 => .ok (.xor (Bits.rd w) (Bits.rs1 w) (Bits.rs2 w))
  | 0b0000000#7, 0b101#3 => .ok (.srl (Bits.rd w) (Bits.rs1 w) (Bits.rs2 w))
  | 0b0100000#7, 0b101#3 => .ok (.sra (Bits.rd w) (Bits.rs1 w) (Bits.rs2 w))
  | 0b0000000#7, 0b110#3 => .ok (.or (Bits.rd w) (Bits.rs1 w) (Bits.rs2 w))
  | 0b0000000#7, 0b111#3 => .ok (.and (Bits.rd w) (Bits.rs1 w) (Bits.rs2 w))
  | _, _ => .error .unknownFunct7

/-- Class JALR (opcode 1100111): funct3 must be 000. -/
def decodeJalr (w : Word) : Except DecodeReject Instr :=
  match Bits.funct3 w with
  | 0b000#3 => .ok (.jalr (Bits.rd w) (Bits.rs1 w) (Bits.immI w))
  | _ => .error .unknownFunct3

/-- Class MISC-MEM (opcode 0001111): funct3 must be 000; rd, rs1 and the immediate are free (R97). -/
def decodeMiscMem (w : Word) : Except DecodeReject Instr :=
  match Bits.funct3 w with
  | 0b000#3 => .ok (.fence (Bits.rd w) (Bits.rs1 w) (Bits.immI w))
  | _ => .error .unknownFunct3

/-- Class SYSTEM (opcode 1110011): two words only (R97). -/
def decodeSystem (w : Word) : Except DecodeReject Instr :=
  if w = 0x00000073#32 then .ok .ecall
  else if w = 0x00100073#32 then .ok .ebreak
  else .error .unknownSystemWord

/-- `Decode(w)` (R96): total on all 2^32 words. -/
def decode (w : Word) : Except DecodeReject Instr :=
  match Bits.opcode w with
  | 0b0110111#7 => .ok (.lui (Bits.rd w) (Bits.immU w))
  | 0b0010111#7 => .ok (.auipc (Bits.rd w) (Bits.immU w))
  | 0b1101111#7 => .ok (.jal (Bits.rd w) (Bits.immJ w))
  | 0b1100111#7 => decodeJalr w
  | 0b1100011#7 => decodeBranch w
  | 0b0000011#7 => decodeLoad w
  | 0b0100011#7 => decodeStore w
  | 0b0010011#7 => decodeOpImm w
  | 0b0110011#7 => decodeOp w
  | 0b0001111#7 => decodeMiscMem w
  | 0b1110011#7 => decodeSystem w
  | _ => .error .unknownOpcode

/-- The instruction at the head of a list of bytes, and the bytes after it: one word of four bytes, little-endian
(R80). -/
def decodeBytes : List Byte → Except DecodeReject (Instr × List Byte)
  | b0 :: b1 :: b2 :: b3 :: rest => (decode (Bits.ofLE 32 [b0, b1, b2, b3])).map fun i => (i, rest)
  | _ => .error .truncated

/-- The instruction the decoder reads from an instruction whose bits are the nbits low bits of w, the table's
numbering: its four bytes are laid out little-endian and decoded. -/
def decodeTableWord (nbits w : Nat) : Option Instr :=
  match decodeBytes (Bits.leBytes 4 (BitVec.ofNat 32 (w % 2 ^ nbits))) with
  | .ok (i, _) => some i
  | .error _ => none

/-! ### Encode (R93): each field put back at its bits by the tables of R82 to R87 -/

/-- R-type (R82). -/
def encodeR (funct7 : BitVec 7) (rs2 rs1 : Reg) (funct3 : BitVec 3) (rd : Reg) (opcode : BitVec 7) : Word :=
  funct7 ++ rs2.bits ++ rs1.bits ++ funct3 ++ rd.bits ++ opcode

/-- I-type (R83). -/
def encodeI (imm : Word) (rs1 : Reg) (funct3 : BitVec 3) (rd : Reg) (opcode : BitVec 7) : Word :=
  imm.extractLsb' 0 12 ++ rs1.bits ++ funct3 ++ rd.bits ++ opcode

/-- The shift-immediate form of the I-type (R91). -/
def encodeShift (funct7 : BitVec 7) (shamt : BitVec 5) (rs1 : Reg) (funct3 : BitVec 3) (rd : Reg)
    (opcode : BitVec 7) : Word :=
  funct7 ++ shamt ++ rs1.bits ++ funct3 ++ rd.bits ++ opcode

/-- S-type (R84). -/
def encodeS (imm : Word) (rs2 rs1 : Reg) (funct3 : BitVec 3) (opcode : BitVec 7) : Word :=
  imm.extractLsb' 5 7 ++ rs2.bits ++ rs1.bits ++ funct3 ++ imm.extractLsb' 0 5 ++ opcode

/-- B-type (R85). -/
def encodeB (imm : Word) (rs2 rs1 : Reg) (funct3 : BitVec 3) (opcode : BitVec 7) : Word :=
  imm.extractLsb' 12 1 ++ imm.extractLsb' 5 6 ++ rs2.bits ++ rs1.bits ++ funct3 ++ imm.extractLsb' 1 4
    ++ imm.extractLsb' 11 1 ++ opcode

/-- U-type (R86). -/
def encodeU (imm : Word) (rd : Reg) (opcode : BitVec 7) : Word :=
  imm.extractLsb' 12 20 ++ rd.bits ++ opcode

/-- J-type (R87). -/
def encodeJ (imm : Word) (rd : Reg) (opcode : BitVec 7) : Word :=
  imm.extractLsb' 20 1 ++ imm.extractLsb' 1 10 ++ imm.extractLsb' 11 1 ++ imm.extractLsb' 12 8 ++ rd.bits ++ opcode

/-- `Encode(d)` (R93): the word of an instruction, with the selectors of the table of R95. -/
def encode : Instr → Word
  | .lui rd imm => encodeU imm rd 0b0110111#7
  | .auipc rd imm => encodeU imm rd 0b0010111#7
  | .jal rd imm => encodeJ imm rd 0b1101111#7
  | .jalr rd rs1 imm => encodeI imm rs1 0b000#3 rd 0b1100111#7
  | .beq rs1 rs2 imm => encodeB imm rs2 rs1 0b000#3 0b1100011#7
  | .bne rs1 rs2 imm => encodeB imm rs2 rs1 0b001#3 0b1100011#7
  | .blt rs1 rs2 imm => encodeB imm rs2 rs1 0b100#3 0b1100011#7
  | .bge rs1 rs2 imm => encodeB imm rs2 rs1 0b101#3 0b1100011#7
  | .bltu rs1 rs2 imm => encodeB imm rs2 rs1 0b110#3 0b1100011#7
  | .bgeu rs1 rs2 imm => encodeB imm rs2 rs1 0b111#3 0b1100011#7
  | .lb rd rs1 imm => encodeI imm rs1 0b000#3 rd 0b0000011#7
  | .lh rd rs1 imm => encodeI imm rs1 0b001#3 rd 0b0000011#7
  | .lw rd rs1 imm => encodeI imm rs1 0b010#3 rd 0b0000011#7
  | .lbu rd rs1 imm => encodeI imm rs1 0b100#3 rd 0b0000011#7
  | .lhu rd rs1 imm => encodeI imm rs1 0b101#3 rd 0b0000011#7
  | .sb rs1 rs2 imm => encodeS imm rs2 rs1 0b000#3 0b0100011#7
  | .sh rs1 rs2 imm => encodeS imm rs2 rs1 0b001#3 0b0100011#7
  | .sw rs1 rs2 imm => encodeS imm rs2 rs1 0b010#3 0b0100011#7
  | .addi rd rs1 imm => encodeI imm rs1 0b000#3 rd 0b0010011#7
  | .slti rd rs1 imm => encodeI imm rs1 0b010#3 rd 0b0010011#7
  | .sltiu rd rs1 imm => encodeI imm rs1 0b011#3 rd 0b0010011#7
  | .xori rd rs1 imm => encodeI imm rs1 0b100#3 rd 0b0010011#7
  | .ori rd rs1 imm => encodeI imm rs1 0b110#3 rd 0b0010011#7
  | .andi rd rs1 imm => encodeI imm rs1 0b111#3 rd 0b0010011#7
  | .slli rd rs1 shamt => encodeShift 0b0000000#7 shamt rs1 0b001#3 rd 0b0010011#7
  | .srli rd rs1 shamt => encodeShift 0b0000000#7 shamt rs1 0b101#3 rd 0b0010011#7
  | .srai rd rs1 shamt => encodeShift 0b0100000#7 shamt rs1 0b101#3 rd 0b0010011#7
  | .add rd rs1 rs2 => encodeR 0b0000000#7 rs2 rs1 0b000#3 rd 0b0110011#7
  | .sub rd rs1 rs2 => encodeR 0b0100000#7 rs2 rs1 0b000#3 rd 0b0110011#7
  | .sll rd rs1 rs2 => encodeR 0b0000000#7 rs2 rs1 0b001#3 rd 0b0110011#7
  | .slt rd rs1 rs2 => encodeR 0b0000000#7 rs2 rs1 0b010#3 rd 0b0110011#7
  | .sltu rd rs1 rs2 => encodeR 0b0000000#7 rs2 rs1 0b011#3 rd 0b0110011#7
  | .xor rd rs1 rs2 => encodeR 0b0000000#7 rs2 rs1 0b100#3 rd 0b0110011#7
  | .srl rd rs1 rs2 => encodeR 0b0000000#7 rs2 rs1 0b101#3 rd 0b0110011#7
  | .sra rd rs1 rs2 => encodeR 0b0100000#7 rs2 rs1 0b101#3 rd 0b0110011#7
  | .or rd rs1 rs2 => encodeR 0b0000000#7 rs2 rs1 0b110#3 rd 0b0110011#7
  | .and rd rs1 rs2 => encodeR 0b0000000#7 rs2 rs1 0b111#3 rd 0b0110011#7
  | .fence rd rs1 imm => encodeI imm rs1 0b000#3 rd 0b0001111#7
  | .ecall => encodeI 0 0 0b000#3 0 0b1110011#7
  | .ebreak => encodeI 1 0 0b000#3 0 0b1110011#7

/-- The four bytes of an instruction as memory holds them (R80). -/
def encodeBytes (i : Instr) : List Byte := Bits.leBytes 4 (encode i)

end Sys2Proof
end

