-- ==== Sys2Proof/Machine/Flags.lean ====
section
/-! DEFINITION. Machine/Flags.lean: the block has no flags (10_state.md R32): a comparison writes 0 or 1 to a register
(SLT, SLTU, SLTI, SLTIU) or decides a branch. These are the comparisons. -/

namespace Sys2Proof.Machine

/-- `s(a) < s(b)` (40_alu.md R140, 00_scope.md R9). -/
def lessSigned (a b : Word) : Bool := decide (a.toInt < b.toInt)

/-- `u(a) < u(b)`. -/
def lessUnsigned (a b : Word) : Bool := decide (a.toNat < b.toNat)

/-- The 0/1 result of a comparison, as a 32-bit value (R140). -/
def boolWord (b : Bool) : Word := if b then 1 else 0

end Sys2Proof.Machine
end

