-- ==== Sys2Proof/Config.lean ====
section
/-! DEFINITION. Config.lean: the parameters the host chooses before a run (00_scope.md R7), all plain data. The spec
leaves no result of an instruction open, so there is no free value here (93_implementation_defined.md, end of Part 1). -/

namespace Sys2Proof

/-- What a byte of memory that no entry lists reads as: the background of the sparse form of memory. DESIGN CHOICE
(notes/assumptions/5.md): the spec leaves the contents of memory outside the image open. A memory with any contents
is a list over this background, so a statement about every state covers every MEM_INIT. -/
def Config.unlistedByte : Byte := 0#8

/-- The alignment in bytes that a fetch address needs (IALIGN = 32 bits, R6). -/
abbrev Config.fetchAlign : Nat := 4

/-- One pattern of the halt convention: it holds of (pc, w) when both agree with it under its masks. The parameter
HALT of R7 is a predicate on (pc, w), here a finite list of patterns, which can express every such predicate.
DESIGN CHOICE (notes/assumptions/3.md). -/
structure HaltPattern where
  pcMask : Word
  pcValue : Word
  wordMask : Word
  wordValue : Word
  deriving DecidableEq, Repr

/-- The parameters of a run (R7). MEM_INIT is `image` placed at `loadBase` over `background`; ENTRY is `entry`, or
`loadBase` when the host gives none (10_state.md R41); REG_INIT is `regInit`, its index i holding x(i+1). -/
structure Params where
  memSize : Nat
  background : List Host.Cell
  image : List Byte
  loadBase : Word
  entry : Option Word
  regInit : Vector Word 31
  halt : List HaltPattern
  deriving DecidableEq, Repr

/-- The parameters `State.reset` takes. DESIGN CHOICE (notes/assumptions/4.md to 7.md) except for `entry` and `halt`,
whose defaults are the spec's: ENTRY = LOAD_BASE when the host gives none, HALT false everywhere. -/
def Params.default : Params where
  memSize := 2 ^ 32
  background := []
  image := []
  loadBase := 0
  entry := none
  regInit := Vector.replicate 31 0
  halt := []

end Sys2Proof
end

