-- ==== Sys2Proof/Machine/Memory.lean ====
section
/-! DEFINITION. Machine/Memory.lean: the memory array of 20_memory.md R50 in one canonical sparse form: addresses
strictly rising, no entry equal to what an unlisted address reads as. -/

namespace Sys2Proof.Machine

/-- The bytes that differ from the background, by address. -/
abbrev Memory := List Host.Cell

/-- The canonical form: equal memories are equal lists. -/
abbrev Memory.wf (m : Memory) : Prop :=
  m.Pairwise (fun c d => c.1 < d.1) ∧ ∀ c ∈ m, c.2 ≠ Config.unlistedByte

/-- Every entry lies below the capacity: the array holds MEM_SIZE bytes and no more (R50). -/
abbrev Memory.within (m : Memory) (size : Nat) : Prop := ∀ c ∈ m, c.1 < size

/-- `mem[a]`. -/
def Memory.read : Memory → Nat → Byte
  | [], _ => Config.unlistedByte
  | (k, v) :: m, a => if k = a then v else Memory.read m a

/-- The entry for a byte b at address a, if it needs one. -/
def Memory.entry (a : Nat) (b : Byte) (m : Memory) : Memory :=
  if b = Config.unlistedByte then m else (a, b) :: m

/-- `mem[a] <- b`, keeping the canonical form. -/
def Memory.write : Memory → Nat → Byte → Memory
  | [], a, b => Memory.entry a b []
  | (k, v) :: m, a, b =>
    if a < k then Memory.entry a b ((k, v) :: m)
    else if a = k then Memory.entry a b m
    else (k, v) :: Memory.write m a b

/-- The n bytes at a, a+1, ..., in unbounded addresses (R52). -/
def Memory.readBytes (m : Memory) (a n : Nat) : List Byte :=
  (List.range n).map fun k => m.read (a + k)

/-- The bytes stored at a, a+1, ..., in ascending order, which cannot be observed (R52, 92_eei_decisions.md D21). -/
def Memory.writeBytes (m : Memory) (a : Nat) : List Byte → Memory
  | [] => m
  | b :: bs => Memory.writeBytes (m.write a b) (a + 1) bs

/-- MEM_INIT (00_scope.md R7, 10_state.md R40): the image placed at LOAD_BASE over what the host left there, cut at
the capacity, since memory holds no byte above it. -/
def Memory.init (p : Params) : Memory :=
  Memory.writeBytes p.background p.loadBase.toNat (p.image.take (p.memSize - p.loadBase.toNat))

end Sys2Proof.Machine
end

