-- ==== Sys2Proof/Machine/State.lean ====
section
/-! DEFINITION. Machine/State.lean: the state of the block (10_state.md R20), the ways a step can stop, and reset
(R38). -/

namespace Sys2Proof.Machine

/-- The fault kinds (60_exceptions.md R230), an enumeration with no numbers (R235). -/
inductive FaultKind where
  | decodeError
  | misalignedFetch
  | outOfBounds
  /-- Raised by no rule (R234). -/
  | unsupportedInstruction
  deriving DecidableEq, Repr

/-- The fault record (10_state.md R31). -/
structure FaultRecord where
  kind : FaultKind
  fetchAddr : Word
  addr : Word
  /-- The raw instruction word, absent when the fetch failed. -/
  instr : Option Word
  deriving DecidableEq, Repr

/-- The run state (R30). Faulted "carries the fault reason and fetch address": the record stands in it, since it has
a meaning only there (R20). -/
inductive RunState where
  | running
  | halted
  | faulted (record : FaultRecord)
  deriving DecidableEq, Repr

/-- The whole state (R20), then the parameters a step consults and the STOP input (00_scope.md R7;
notes/assumptions/1.md to 3.md). -/
structure State where
  /-- x1 to x31, index i holding x(i+1); x0 holds no state (R20, R22). -/
  regs : Vector Word 31
  /-- The program counter (R26). -/
  pc : Word
  /-- The memory array (R35, 20_memory.md R50). -/
  mem : Memory
  /-- The run state and, in Faulted, the fault record (R30, R31). -/
  runState : RunState
  /-- MEM_SIZE (00_scope.md R7): constant during a run. -/
  memSize : Nat
  /-- HALT (R7, 46_step_sequencer.md R214): constant during a run; the empty list is false everywhere. -/
  halt : List HaltPattern
  /-- STOP (R7, R213): the input bits of the coming steps, the next step's first; an exhausted list reads as 0. -/
  stop : List Bool
  deriving DecidableEq, Repr

/-- The reasons a step can stop. Both are raised by `step` alone, where no step is defined (46_step_sequencer.md
R218), and both are safe: the machine is stuck there, as the spec says. A fault of the hardware (R230) is none of
these: it is a next state, whose run state is Faulted (60_exceptions.md R236). -/
inductive Fault where
  /-- Raised by `step` in Halted. Safe: "In Halted and in Faulted no step is defined" (R218). -/
  | noStepInHalted
  /-- Raised by `step` in Faulted; the fault record stays readable in the state. Safe (R218). -/
  | noStepInFaulted
  deriving DecidableEq, Repr

/-- The reasons there is no meaning. -/
inductive Refusal where
  /-- Raised by an arm of `exec` for an instruction that has no meaning yet, by its mnemonic. Safe. No arm raises it:
  all 40 instructions have their meaning. -/
  | notModelled (mnemonic : String)
  deriving DecidableEq, Repr

/-- ENTRY, or LOAD_BASE when the host gives none (10_state.md R41). -/
def entryAddress (p : Params) : Word := p.entry.getD p.loadBase

/-- Reset (10_state.md R38, 70_reset_and_hazards.md R260) with the parameters the host chose and its STOP inputs. -/
def State.resetWith (p : Params) (stop : List Bool) : State where
  regs := p.regInit
  pc := entryAddress p
  mem := Memory.init p
  runState := .running
  memSize := p.memSize
  halt := p.halt
  stop := stop

/-- The machine right after reset: every field at the value the spec states, or at the value that
notes/assumptions/4.md to 7.md name where the spec leaves a parameter open. The spec leaves the input STOP open too:
here it is never set, DESIGN CHOICE (notes/assumptions/27.md); `State.resetWith` takes any STOP. -/
def State.reset : State := State.resetWith Params.default []

end Sys2Proof.Machine
end

