-- ==== Sys2Proof/Machine/Ops.lean ====
section
/-! DEFINITION. Machine/Ops.lean: the named operations over registers, pc, memory and run state that every meaning
uses (00_scope.md R11, 10_state.md R39), and entering Faulted. -/

namespace Sys2Proof.Machine

/-! ### Registers and pc -/

/-- `x[i]` (10_state.md R22): zero for i = 0. -/
def State.readReg (s : State) (i : Reg) : Word :=
  if _h : i = 0 then 0 else s.regs[i.val - 1]

/-- `x[i] <- v` (R23): no effect for i = 0. -/
def State.writeReg (s : State) (i : Reg) (v : Word) : State :=
  if _h : i = 0 then s else { s with regs := s.regs.set (i.val - 1) v }

/-- The sequential next pc, modulo 2^32 (R27, R29). -/
def State.nextPc (s : State) : Word := s.pc + 4

/-- `pc <- t` (R27). -/
def State.jumpTo (s : State) (t : Word) : State := { s with pc := t }

/-- `pc <- pc + 4` (R27). -/
def State.advance (s : State) : State := s.jumpTo s.nextPc

/-! ### Memory: the load/store unit -/

/-- Whether an access of n bytes (n ≥ 1) at a is in bounds, `u(a) + n - 1 < MEM_SIZE` in unbounded integers
(20_memory.md R55). -/
def State.inBounds (s : State) (a : Word) (n : Nat) : Bool := decide (a.toNat + n ≤ s.memSize)

/-- `MemRead(a, n)` (R56) as its n bytes, or nothing where it raises OutOfBounds. -/
def State.memRead (s : State) (a : Word) (n : Nat) : Option (List Byte) :=
  if s.inBounds a n then some (s.mem.readBytes a.toNat n) else none

/-- `MemWrite(a, n, v)` (R57) of the bytes of v, or nothing where it raises OutOfBounds: then no byte is written. -/
def State.memWrite (s : State) (a : Word) (bytes : List Byte) : Option State :=
  if s.inBounds a bytes.length then some { s with mem := s.mem.writeBytes a.toNat bytes } else none

/-- `loadByte(a)` (10_state.md R39): the raw 8 bits. -/
def State.loadByte (s : State) (a : Word) : Option (BitVec 8) := (s.memRead a 1).map (Bits.ofLE 8)

/-- `loadHalf(a)` (R39): the raw 16 bits. -/
def State.loadHalf (s : State) (a : Word) : Option (BitVec 16) := (s.memRead a 2).map (Bits.ofLE 16)

/-- `loadWord(a)` (R39): the raw 32 bits. -/
def State.loadWord (s : State) (a : Word) : Option Word := (s.memRead a 4).map (Bits.ofLE 32)

/-- `storeByte(a, v)` (R39). -/
def State.storeByte (s : State) (a : Word) (v : BitVec 8) : Option State := s.memWrite a (Bits.leBytes 1 v)

/-- `storeHalf(a, v)` (R39). -/
def State.storeHalf (s : State) (a : Word) (v : BitVec 16) : Option State := s.memWrite a (Bits.leBytes 2 v)

/-- `storeWord(a, v)` (R39). -/
def State.storeWord (s : State) (a : Word) (v : Word) : Option State := s.memWrite a (Bits.leBytes 4 v)

/-! ### Fetch (46_step_sequencer.md R212) -/

/-- Whether the pc is a multiple of 4 (20_memory.md R54). -/
def State.fetchAligned (s : State) : Bool := decide (s.pc.toNat % Config.fetchAlign = 0)

/-- Fetch: first the alignment check, then the bounds check, then the word at the pc. -/
def State.fetch (s : State) : Except FaultKind Word :=
  if s.fetchAligned then
    match s.loadWord s.pc with
    | some w => .ok w
    | none => .error .outOfBounds
  else .error .misalignedFetch

/-- The current instruction, `MemRead(pc, 4)` (10_state.md R42): the word at the pc, whatever the pc's alignment. After a
fetch that succeeded it is the fetched word, and the fault record of a data access takes it as `instr` (R31;
notes/assumptions/9.md). -/
def State.currentWord (s : State) : Option Word := s.loadWord s.pc

/-! ### Run state -/

/-- `raise K` (60_exceptions.md R236): the one way into Faulted. The run state becomes Faulted and the record is
written, `fetch_addr` being the pc; nothing else changes, control goes nowhere. There is no way back: no instruction
returns from a fault, Faulted is terminal, and only a reset leaves it (R238). -/
def State.raise (s : State) (kind : FaultKind) (addr : Word) (instr : Option Word) : State :=
  { s with runState := .faulted { kind := kind, fetchAddr := s.pc, addr := addr, instr := instr } }

/-- `run_state <- Halted` (46_step_sequencer.md R213, R214): nothing else changes. -/
def State.enterHalted (s : State) : State := { s with runState := .halted }

/-- The fault record, absent outside Faulted (10_state.md R31). -/
def State.faultRecord (s : State) : Option FaultRecord :=
  match s.runState with
  | .faulted r => some r
  | .running | .halted => none

/-! ### STOP and HALT -/

/-- STOP as the next step samples it (R213). -/
def State.stopNow (s : State) : Bool := s.stop.headD false

/-- The state once the step's STOP bit has been sampled. -/
def State.sampleStop (s : State) : State := { s with stop := s.stop.tail }

/-- Whether a halt pattern holds of (pc, w). -/
def haltPatternMatches (p : HaltPattern) (pc w : Word) : Bool :=
  pc &&& p.pcMask == p.pcValue && w &&& p.wordMask == p.wordValue

/-- `HALT(pc, w)` (R214). -/
def State.haltMatches (s : State) (w : Word) : Bool := s.halt.any fun p => haltPatternMatches p s.pc w

/-! ### Commit -/

/-- The commit of an instruction that writes x[rd] and goes on: `x[rd] <- v; pc <- pc + 4`. -/
def State.writeBack (s : State) (rd : Reg) (v : Word) : Host.Outcome State Fault Refusal :=
  .next (s.writeReg rd v).advance

end Sys2Proof.Machine
end

