-- ==== Sys2Proof/Machine/Operands.lean ====
section
/-! DEFINITION. Machine/Operands.lean: the operand forms: the one addressing mode (42_load_store.md R160), the shift
amount (40_alu.md R140), branch and jump targets (43_branch.md R180, 44_jump.md R191, R192), the link value (R190).
A register operand is `State.readReg`, an immediate operand the decoded immediate itself. -/

namespace Sys2Proof.Machine

/-- `ea <- x[rs1] + imm` modulo 2^32 (R160). -/
def State.effectiveAddress (s : State) (rs1 : Reg) (imm : Word) : Word := s.readReg rs1 + imm

/-- The shift amount a register gives: its low 5 bits, 0 to 31 (R140). -/
def shiftAmount (v : Word) : Nat := (v.extractLsb' 0 5).toNat

/-- `pc + imm` modulo 2^32: the target of a taken branch and of JAL, and the result of AUIPC (R180, R191,
41_upper_immediate.md R152). -/
def State.pcRelative (s : State) (imm : Word) : Word := s.pc + imm

/-- `(x[rs1] + imm) AND 0xFFFFFFFE` (R192). -/
def State.jalrTarget (s : State) (rs1 : Reg) (imm : Word) : Word := (s.readReg rs1 + imm) &&& 0xFFFFFFFE#32

/-- The link value, `pc + 4` modulo 2^32 (R190). -/
def State.linkValue (s : State) : Word := s.pc + 4

end Sys2Proof.Machine
end

