-- ==== Sys2Proof/Machine/Alu.lean ====
section
/-! DEFINITION. Machine/Alu.lean: the 19 integer computational instructions (40_alu.md R120 to R140). Each writes
x[rd] and sets `pc <- pc + 4`; sources are read before rd is written (00_scope.md R12). -/

namespace Sys2Proof.Machine

/-! ### Register-register -/

/-- ADD (R121). -/
def execAdd (rd rs1 rs2 : Reg) (s : State) : Host.Outcome State Fault Refusal :=
  s.writeBack rd (s.readReg rs1 + s.readReg rs2)

/-- SUB (R122). -/
def execSub (rd rs1 rs2 : Reg) (s : State) : Host.Outcome State Fault Refusal :=
  s.writeBack rd (s.readReg rs1 - s.readReg rs2)

/-- SLL (R123). -/
def execSll (rd rs1 rs2 : Reg) (s : State) : Host.Outcome State Fault Refusal :=
  s.writeBack rd (s.readReg rs1 <<< shiftAmount (s.readReg rs2))

/-- SLT (R124). -/
def execSlt (rd rs1 rs2 : Reg) (s : State) : Host.Outcome State Fault Refusal :=
  s.writeBack rd (boolWord (lessSigned (s.readReg rs1) (s.readReg rs2)))

/-- SLTU (R125). -/
def execSltu (rd rs1 rs2 : Reg) (s : State) : Host.Outcome State Fault Refusal :=
  s.writeBack rd (boolWord (lessUnsigned (s.readReg rs1) (s.readReg rs2)))

/-- XOR (R126). -/
def execXor (rd rs1 rs2 : Reg) (s : State) : Host.Outcome State Fault Refusal :=
  s.writeBack rd (s.readReg rs1 ^^^ s.readReg rs2)

/-- SRL (R127). -/
def execSrl (rd rs1 rs2 : Reg) (s : State) : Host.Outcome State Fault Refusal :=
  s.writeBack rd (s.readReg rs1 >>> shiftAmount (s.readReg rs2))

/-- SRA (R128). -/
def execSra (rd rs1 rs2 : Reg) (s : State) : Host.Outcome State Fault Refusal :=
  s.writeBack rd ((s.readReg rs1).sshiftRight (shiftAmount (s.readReg rs2)))

/-- OR (R129). -/
def execOr (rd rs1 rs2 : Reg) (s : State) : Host.Outcome State Fault Refusal :=
  s.writeBack rd (s.readReg rs1 ||| s.readReg rs2)

/-- AND (R130). -/
def execAnd (rd rs1 rs2 : Reg) (s : State) : Host.Outcome State Fault Refusal :=
  s.writeBack rd (s.readReg rs1 &&& s.readReg rs2)

/-! ### Register-immediate: `imm` is already sign-extended by the decoder -/

/-- ADDI (R131). -/
def execAddi (rd rs1 : Reg) (imm : Word) (s : State) : Host.Outcome State Fault Refusal :=
  s.writeBack rd (s.readReg rs1 + imm)

/-- SLTI (R132). -/
def execSlti (rd rs1 : Reg) (imm : Word) (s : State) : Host.Outcome State Fault Refusal :=
  s.writeBack rd (boolWord (lessSigned (s.readReg rs1) imm))

/-- SLTIU (R133): the sign-extended immediate read as unsigned. -/
def execSltiu (rd rs1 : Reg) (imm : Word) (s : State) : Host.Outcome State Fault Refusal :=
  s.writeBack rd (boolWord (lessUnsigned (s.readReg rs1) imm))

/-- XORI (R134). -/
def execXori (rd rs1 : Reg) (imm : Word) (s : State) : Host.Outcome State Fault Refusal :=
  s.writeBack rd (s.readReg rs1 ^^^ imm)

/-- ORI (R135). -/
def execOri (rd rs1 : Reg) (imm : Word) (s : State) : Host.Outcome State Fault Refusal :=
  s.writeBack rd (s.readReg rs1 ||| imm)

/-- ANDI (R136). -/
def execAndi (rd rs1 : Reg) (imm : Word) (s : State) : Host.Outcome State Fault Refusal :=
  s.writeBack rd (s.readReg rs1 &&& imm)

/-- SLLI (R137). -/
def execSlli (rd rs1 : Reg) (shamt : BitVec 5) (s : State) : Host.Outcome State Fault Refusal :=
  s.writeBack rd (s.readReg rs1 <<< shamt.toNat)

/-- SRLI (R138). -/
def execSrli (rd rs1 : Reg) (shamt : BitVec 5) (s : State) : Host.Outcome State Fault Refusal :=
  s.writeBack rd (s.readReg rs1 >>> shamt.toNat)

/-- SRAI (R139). -/
def execSrai (rd rs1 : Reg) (shamt : BitVec 5) (s : State) : Host.Outcome State Fault Refusal :=
  s.writeBack rd ((s.readReg rs1).sshiftRight shamt.toNat)

end Sys2Proof.Machine
end

