-- ==== Sys2Proof/Machine/Branch.lean ====
section
/-! DEFINITION. Machine/Branch.lean: the conditional branches (43_branch.md R180 to R187). -/

namespace Sys2Proof.Machine

/-- Every branch: it writes only the pc, unchecked; a bad target faults at the next fetch (R180, R187). -/
def State.branch (s : State) (taken : Bool) (imm : Word) : Host.Outcome State Fault Refusal :=
  .next (if taken then s.jumpTo (s.pcRelative imm) else s.advance)

/-- BEQ (R181). -/
def execBeq (rs1 rs2 : Reg) (imm : Word) (s : State) : Host.Outcome State Fault Refusal :=
  s.branch (s.readReg rs1 == s.readReg rs2) imm

/-- BNE (R182). -/
def execBne (rs1 rs2 : Reg) (imm : Word) (s : State) : Host.Outcome State Fault Refusal :=
  s.branch (s.readReg rs1 != s.readReg rs2) imm

/-- BLT (R183). -/
def execBlt (rs1 rs2 : Reg) (imm : Word) (s : State) : Host.Outcome State Fault Refusal :=
  s.branch (lessSigned (s.readReg rs1) (s.readReg rs2)) imm

/-- BGE (R184). -/
def execBge (rs1 rs2 : Reg) (imm : Word) (s : State) : Host.Outcome State Fault Refusal :=
  s.branch (!lessSigned (s.readReg rs1) (s.readReg rs2)) imm

/-- BLTU (R185). -/
def execBltu (rs1 rs2 : Reg) (imm : Word) (s : State) : Host.Outcome State Fault Refusal :=
  s.branch (lessUnsigned (s.readReg rs1) (s.readReg rs2)) imm

/-- BGEU (R186). -/
def execBgeu (rs1 rs2 : Reg) (imm : Word) (s : State) : Host.Outcome State Fault Refusal :=
  s.branch (!lessUnsigned (s.readReg rs1) (s.readReg rs2)) imm

end Sys2Proof.Machine
end

