-- ==== Sys2Proof/Machine/Jump.lean ====
section
/-! DEFINITION. Machine/Jump.lean: the unconditional jumps (44_jump.md R190 to R193). -/

namespace Sys2Proof.Machine

/-- Both jumps: `x[rd] <- pc + 4; pc <- t`, t computed before, unchecked; a bad target faults at the next fetch
(R190, R193). -/
def State.jumpAndLink (s : State) (rd : Reg) (t : Word) : Host.Outcome State Fault Refusal :=
  .next ((s.writeReg rd s.linkValue).jumpTo t)

/-- JAL (R191). -/
def execJal (rd : Reg) (imm : Word) (s : State) : Host.Outcome State Fault Refusal :=
  s.jumpAndLink rd (s.pcRelative imm)

/-- JALR (R192): x[rs1] is read before x[rd] is written. -/
def execJalr (rd rs1 : Reg) (imm : Word) (s : State) : Host.Outcome State Fault Refusal :=
  s.jumpAndLink rd (s.jalrTarget rs1 imm)

end Sys2Proof.Machine
end

