-- ==== Sys2Proof/Machine/LoadStore.lean ====
section
/-! DEFINITION. Machine/LoadStore.lean: loads and stores (42_load_store.md R160 to R170). -/

namespace Sys2Proof.Machine

/-- OutOfBounds of a data access at ea (60_exceptions.md R233): `addr` is ea, `instr` the word at the pc. -/
def State.dataFault (s : State) (ea : Word) : State := s.raise .outOfBounds ea s.currentWord

/-- Every load: the access at ea, then either x[rd] takes the extended raw value, or the step faults and nothing is
written (R169, R170). -/
def execLoad {n : Nat} (load : State → Word → Option (BitVec n)) (extend : BitVec n → Word)
    (rd rs1 : Reg) (imm : Word) (s : State) : Host.Outcome State Fault Refusal :=
  match load s (s.effectiveAddress rs1 imm) with
  | some raw => s.writeBack rd (extend raw)
  | none => .next (s.dataFault (s.effectiveAddress rs1 imm))

/-- Every store: the low n bits of x[rs2] go to ea, or the step faults and no byte is written (R169, R170). -/
def execStore {n : Nat} (store : State → Word → BitVec n → Option State)
    (rs1 rs2 : Reg) (imm : Word) (s : State) : Host.Outcome State Fault Refusal :=
  match store s (s.effectiveAddress rs1 imm) ((s.readReg rs2).setWidth n) with
  | some t => .next t.advance
  | none => .next (s.dataFault (s.effectiveAddress rs1 imm))

/-- LB (R161). -/
def execLb (rd rs1 : Reg) (imm : Word) (s : State) : Host.Outcome State Fault Refusal :=
  execLoad State.loadByte Bits.sext rd rs1 imm s

/-- LH (R162). -/
def execLh (rd rs1 : Reg) (imm : Word) (s : State) : Host.Outcome State Fault Refusal :=
  execLoad State.loadHalf Bits.sext rd rs1 imm s

/-- LW (R163). -/
def execLw (rd rs1 : Reg) (imm : Word) (s : State) : Host.Outcome State Fault Refusal :=
  execLoad State.loadWord (fun raw => raw) rd rs1 imm s

/-- LBU (R164). -/
def execLbu (rd rs1 : Reg) (imm : Word) (s : State) : Host.Outcome State Fault Refusal :=
  execLoad State.loadByte Bits.zext rd rs1 imm s

/-- LHU (R165). -/
def execLhu (rd rs1 : Reg) (imm : Word) (s : State) : Host.Outcome State Fault Refusal :=
  execLoad State.loadHalf Bits.zext rd rs1 imm s

/-- SB (R166). -/
def execSb (rs1 rs2 : Reg) (imm : Word) (s : State) : Host.Outcome State Fault Refusal :=
  execStore State.storeByte rs1 rs2 imm s

/-- SH (R167). -/
def execSh (rs1 rs2 : Reg) (imm : Word) (s : State) : Host.Outcome State Fault Refusal :=
  execStore State.storeHalf rs1 rs2 imm s

/-- SW (R168). -/
def execSw (rs1 rs2 : Reg) (imm : Word) (s : State) : Host.Outcome State Fault Refusal :=
  execStore State.storeWord rs1 rs2 imm s

end Sys2Proof.Machine
end

