-- ==== Sys2Proof/Machine/System.lean ====
section
/-! DEFINITION. Machine/System.lean: FENCE, ECALL and EBREAK, no-ops that advance the pc (45_system.md R200 to R203;
notes/assumptions/11.md). -/

namespace Sys2Proof.Machine

/-- FENCE (R201): rd, rs1 and the immediate are ignored. -/
def execFence (_rd _rs1 : Reg) (_imm : Word) (s : State) : Host.Outcome State Fault Refusal :=
  .next s.advance

/-- ECALL (R202). -/
def execEcall (s : State) : Host.Outcome State Fault Refusal := .next s.advance

/-- EBREAK (R203). -/
def execEbreak (s : State) : Host.Outcome State Fault Refusal := .next s.advance

end Sys2Proof.Machine
end

