-- ==== Sys2Proof/Machine/Upper.lean ====
section
/-! DEFINITION. Machine/Upper.lean: the upper-immediate instructions (41_upper_immediate.md R150 to R152). -/

namespace Sys2Proof.Machine

/-- LUI (R151). -/
def execLui (rd : Reg) (imm : Word) (s : State) : Host.Outcome State Fault Refusal :=
  s.writeBack rd imm

/-- AUIPC (R152): pc is the address of the AUIPC itself. -/
def execAuipc (rd : Reg) (imm : Word) (s : State) : Host.Outcome State Fault Refusal :=
  s.writeBack rd (s.pcRelative imm)

end Sys2Proof.Machine
end

