-- ==== Sys2Proof/Machine/Sequencer.lean ====
section
/-! DEFINITION. Machine/Sequencer.lean: one fetch-decode-execute step in Running, `Step()` (46_step_sequencer.md R211).
-/

namespace Sys2Proof.Machine

/-- Steps 4 to 6 of R211: decode the fetched word, then execute it (R215, R216). -/
def decodeAndExecute (s : State) (w : Word) : Host.Outcome State Fault Refusal :=
  match decode w with
  | .error _ => .next (s.raise .decodeError s.pc (some w))
  | .ok i => exec i s

/-- Steps 2 and 3 of R211: fetch, then the HALT test, then the rest (R212, R214). -/
def fetchAndRun (s : State) : Host.Outcome State Fault Refusal :=
  match s.fetch with
  | .error kind => .next (s.raise kind s.pc none)
  | .ok w => if s.haltMatches w then .next s.enterHalted else decodeAndExecute s w

/-- One step in Running: STOP is sampled first (step 1 of R211, R213). -/
def runningStep (s : State) : Host.Outcome State Fault Refusal :=
  if s.stopNow then .next s.sampleStop.enterHalted else fetchAndRun s.sampleStop

/-- One step: none exists in Halted and in Faulted (R218). -/
def sequencerStep (s : State) : Host.Outcome State Fault Refusal :=
  match s.runState with
  | .running => runningStep s
  | .halted => .fault .noStepInHalted
  | .faulted _ => .fault .noStepInFaulted

/-- The nbits low bits of w, every higher bit zero, stored little-endian at the pc, where the next step fetches;
nothing changes where the fetch cannot reach (MEM_SIZE). -/
def placeWord (s : State) (nbits w : Nat) : State :=
  (s.storeWord s.pc (BitVec.ofNat 32 (w % 2 ^ nbits))).getD s

end Sys2Proof.Machine
end

