-- ==== Sys2Proof/Machine/Step.lean ====
section
/-! DEFINITION. Machine/Step.lean: the step of the machine (46_step_sequencer.md R211, in Machine/Sequencer.lean). -/

namespace Sys2Proof.Machine

/-- One step. -/
def step (s : State) : Host.Outcome State Fault Refusal := sequencerStep s

/-- s with the instruction of nbits bits w stored where the next step fetches: at the pc. It stands for the host's
placing of the program image (notes/assumptions/18.md). -/
def State.withFetchWord (s : State) (nbits w : Nat) : State := placeWord s nbits w

end Sys2Proof.Machine
end

