-- ==== Sys2Proof/Machine/Assembler.lean ====
section
/-! DEFINITION. Machine/Assembler.lean: the names, the syntax and the pseudo-instructions the spec lists beside the
hardware (10_state.md R25, 30_encoding.md R106, R107). None of them changes what the hardware does. -/

namespace Sys2Proof.Assembler

/-- The architectural name, x0 to x31 (10_state.md R25). -/
def regName (r : Reg) : String := "x" ++ toString r.val

/-- The assembler's alias (R25); x8 is also called fp. -/
def regAlias (r : Reg) : String :=
  if r.val = 0 then "zero" else if r.val = 1 then "ra" else if r.val = 2 then "sp" else if r.val = 3 then "gp"
  else if r.val = 4 then "tp" else if r.val ≤ 7 then "t" ++ toString (r.val - 5)
  else if r.val ≤ 9 then "s" ++ toString (r.val - 8) else if r.val ≤ 17 then "a" ++ toString (r.val - 10)
  else if r.val ≤ 27 then "s" ++ toString (r.val - 16) else "t" ++ toString (r.val - 25)

/-! ### Syntax (30_encoding.md R106) -/

/-- Operands separated by commas, the destination first. -/
def line (mnemonic : String) (operands : List String) : String := mnemonic ++ " " ++ ", ".intercalate operands

/-- An R-type line, `add rd, rs1, rs2`. -/
def lineR (m : String) (rd rs1 rs2 : Reg) : String := line m [regName rd, regName rs1, regName rs2]

/-- An I-type ALU line, `addi rd, rs1, imm`, the immediate in signed decimal. -/
def lineI (m : String) (rd rs1 : Reg) (imm : Word) : String := line m [regName rd, regName rs1, toString imm.toInt]

/-- A shift-immediate line, `slli rd, rs1, shamt`. -/
def lineShift (m : String) (rd rs1 : Reg) (shamt : BitVec 5) : String :=
  line m [regName rd, regName rs1, toString shamt.toNat]

/-- A line with a memory-style operand: `lw rd, imm(rs1)`, `sw rs2, imm(rs1)`, `jalr rd, imm(rs1)`. -/
def lineMem (m : String) (r rs1 : Reg) (imm : Word) : String :=
  line m [regName r, toString imm.toInt ++ "(" ++ regName rs1 ++ ")"]

/-- A branch line, `beq rs1, rs2, offset`: the offset from the instruction's own address, equal to the immediate. -/
def lineBranch (m : String) (rs1 rs2 : Reg) (imm : Word) : String :=
  line m [regName rs1, regName rs2, toString imm.toInt]

/-- A U-type line, `lui rd, imm20`: the value of word bits 31:12. -/
def lineU (m : String) (rd : Reg) (imm : Word) : String := line m [regName rd, toString (imm.toNat / 4096)]

/-- A set of the letters i, o, r, w from four bits, i the highest. PRESUMED (notes/assumptions/24.md): R106 gives the
letters and the fields, not the bit of each letter. -/
def fenceSet (bits : BitVec 4) : String :=
  (if bits.getLsbD 3 then "i" else "") ++ (if bits.getLsbD 2 then "o" else "")
    ++ (if bits.getLsbD 1 then "r" else "") ++ (if bits.getLsbD 0 then "w" else "")

/-- The FENCE line, `fence pred, succ`: imm[7:4] is pred, imm[3:0] succ; nothing where the syntax cannot name the word
(fm, rd or rs1 not zero, or an empty set). -/
def lineFence (rd rs1 : Reg) (imm : Word) : Option String :=
  if rd = 0 ∧ rs1 = 0 ∧ imm.extractLsb' 8 4 = 0 ∧ imm.extractLsb' 4 4 ≠ 0 ∧ imm.extractLsb' 0 4 ≠ 0 then
    some (line "fence" [fenceSet (imm.extractLsb' 4 4), fenceSet (imm.extractLsb' 0 4)])
  else none

/-- The line of an instruction, in lower case. -/
def asm : Instr → Option String
  | .lui rd imm => some (lineU "lui" rd imm)
  | .auipc rd imm => some (lineU "auipc" rd imm)
  | .jal rd imm => some (line "jal" [regName rd, toString imm.toInt])
  | .jalr rd rs1 imm => some (lineMem "jalr" rd rs1 imm)
  | .beq rs1 rs2 imm => some (lineBranch "beq" rs1 rs2 imm)
  | .bne rs1 rs2 imm => some (lineBranch "bne" rs1 rs2 imm)
  | .blt rs1 rs2 imm => some (lineBranch "blt" rs1 rs2 imm)
  | .bge rs1 rs2 imm => some (lineBranch "bge" rs1 rs2 imm)
  | .bltu rs1 rs2 imm => some (lineBranch "bltu" rs1 rs2 imm)
  | .bgeu rs1 rs2 imm => some (lineBranch "bgeu" rs1 rs2 imm)
  | .lb rd rs1 imm => some (lineMem "lb" rd rs1 imm)
  | .lh rd rs1 imm => some (lineMem "lh" rd rs1 imm)
  | .lw rd rs1 imm => some (lineMem "lw" rd rs1 imm)
  | .lbu rd rs1 imm => some (lineMem "lbu" rd rs1 imm)
  | .lhu rd rs1 imm => some (lineMem "lhu" rd rs1 imm)
  | .sb rs1 rs2 imm => some (lineMem "sb" rs2 rs1 imm)
  | .sh rs1 rs2 imm => some (lineMem "sh" rs2 rs1 imm)
  | .sw rs1 rs2 imm => some (lineMem "sw" rs2 rs1 imm)
  | .addi rd rs1 imm => some (lineI "addi" rd rs1 imm)
  | .slti rd rs1 imm => some (lineI "slti" rd rs1 imm)
  | .sltiu rd rs1 imm => some (lineI "sltiu" rd rs1 imm)
  | .xori rd rs1 imm => some (lineI "xori" rd rs1 imm)
  | .ori rd rs1 imm => some (lineI "ori" rd rs1 imm)
  | .andi rd rs1 imm => some (lineI "andi" rd rs1 imm)
  | .slli rd rs1 shamt => some (lineShift "slli" rd rs1 shamt)
  | .srli rd rs1 shamt => some (lineShift "srli" rd rs1 shamt)
  | .srai rd rs1 shamt => some (lineShift "srai" rd rs1 shamt)
  | .add rd rs1 rs2 => some (lineR "add" rd rs1 rs2)
  | .sub rd rs1 rs2 => some (lineR "sub" rd rs1 rs2)
  | .sll rd rs1 rs2 => some (lineR "sll" rd rs1 rs2)
  | .slt rd rs1 rs2 => some (lineR "slt" rd rs1 rs2)
  | .sltu rd rs1 rs2 => some (lineR "sltu" rd rs1 rs2)
  | .xor rd rs1 rs2 => some (lineR "xor" rd rs1 rs2)
  | .srl rd rs1 rs2 => some (lineR "srl" rd rs1 rs2)
  | .sra rd rs1 rs2 => some (lineR "sra" rd rs1 rs2)
  | .or rd rs1 rs2 => some (lineR "or" rd rs1 rs2)
  | .and rd rs1 rs2 => some (lineR "and" rd rs1 rs2)
  | .fence rd rs1 imm => lineFence rd rs1 imm
  | .ecall => some "ecall"
  | .ebreak => some "ebreak"

/-! ### Pseudo-instructions (R107) -/

/-- The pseudo-instructions of R107; `la`, `call` and `tail` carry the distance symbol - pc. -/
inductive Pseudo where
  | nop
  | mv (rd rs : Reg)
  | not (rd rs : Reg)
  | neg (rd rs : Reg)
  | seqz (rd rs : Reg)
  | snez (rd rs : Reg)
  | sltz (rd rs : Reg)
  | sgtz (rd rs : Reg)
  | li (rd : Reg) (imm : Word)
  | la (rd : Reg) (off : Word)
  | beqz (rs : Reg) (off : Word)
  | bnez (rs : Reg) (off : Word)
  | blez (rs : Reg) (off : Word)
  | bgez (rs : Reg) (off : Word)
  | bltz (rs : Reg) (off : Word)
  | bgtz (rs : Reg) (off : Word)
  | bgt (rs rt : Reg) (off : Word)
  | ble (rs rt : Reg) (off : Word)
  | bgtu (rs rt : Reg) (off : Word)
  | bleu (rs rt : Reg) (off : Word)
  | j (off : Word)
  | jal (off : Word)
  | jr (rs : Reg)
  | jalr (rs : Reg)
  | ret
  | call (off : Word)
  | tail (off : Word)
  deriving DecidableEq, Repr

/-- The upper part of a split constant as a U-immediate, `((imm + 0x800) >> 12) & 0xFFFFF` at bits 31:12 (`li`). -/
def hi (imm : Word) : Word := (imm + 0x800#32).extractLsb' 12 20 ++ 0#12

/-- The low part, `sext(imm[11:0])` (`li`). -/
def lo (imm : Word) : Word := Bits.sext (imm.extractLsb' 0 12)

/-- The expansion of a pseudo-instruction (R107). -/
def expand : Pseudo → List Instr
  | .nop => [.addi 0 0 0]
  | .mv rd rs => [.addi rd rs 0]
  | .not rd rs => [.xori rd rs (-1)]
  | .neg rd rs => [.sub rd 0 rs]
  | .seqz rd rs => [.sltiu rd rs 1]
  | .snez rd rs => [.sltu rd 0 rs]
  | .sltz rd rs => [.slt rd rs 0]
  | .sgtz rd rs => [.slt rd 0 rs]
  | .li rd imm =>
    if immFits12 imm then [.addi rd 0 imm]
    else if lo imm = 0 then [.lui rd (hi imm)]
    else [.lui rd (hi imm), .addi rd rd (lo imm)]
  | .la rd off => [.auipc rd (hi off), .addi rd rd (lo off)]
  | .beqz rs off => [.beq rs 0 off]
  | .bnez rs off => [.bne rs 0 off]
  | .blez rs off => [.bge 0 rs off]
  | .bgez rs off => [.bge rs 0 off]
  | .bltz rs off => [.blt rs 0 off]
  | .bgtz rs off => [.blt 0 rs off]
  | .bgt rs rt off => [.blt rt rs off]
  | .ble rs rt off => [.bge rt rs off]
  | .bgtu rs rt off => [.bltu rt rs off]
  | .bleu rs rt off => [.bgeu rt rs off]
  | .j off => [.jal 0 off]
  | .jal off => [.jal 1 off]
  | .jr rs => [.jalr 0 rs 0]
  | .jalr rs => [.jalr 1 rs 0]
  | .ret => [.jalr 0 1 0]
  | .call off => [.auipc 1 (hi off), .jalr 1 1 (lo off)]
  | .tail off => [.auipc 6 (hi off), .jalr 0 6 (lo off)]

end Sys2Proof.Assembler
end

