-- ==== Sys2Proof/Machine/Inspect.lean ====
section
/-! DEFINITION. Machine/Inspect.lean: what the host sees of the state between steps (10_state.md R42, R43) and what it
must arrange before the first (70_reset_and_hazards.md R263). None of these changes the state. -/

namespace Sys2Proof.Machine

/-- The register file as the host reads it, x0 to x31 (R42). -/
def State.registers (s : State) : Vector Word 32 := Vector.ofFn s.readReg

/-- The memory byte at an address, for an address below MEM_SIZE (R42). -/
def State.byteAt (s : State) (a : Nat) : Option Byte :=
  if a < s.memSize then some (s.mem.read a) else none

/-- The current instruction, `MemRead(pc, 4)`, and the pc, which a host applies a halt convention of its own to (R42):
nothing only where the word reaches MEM_SIZE. A fetch also checks the alignment of the pc; inspection does not. -/
def State.current (s : State) : Option (Word × Word) := s.currentWord.map fun w => (w, s.pc)

/-- The fault report (R43): the fault record and the register-file snapshot. -/
structure FaultReport where
  record : FaultRecord
  registers : Vector Word 32
  deriving DecidableEq, Repr

/-- The fault report, in Faulted only (R43). -/
def State.faultReport (s : State) : Option FaultReport :=
  s.faultRecord.map fun r => { record := r, registers := s.registers }

/-- What the host must see to before the first step (R263): a capacity of at most 2^32 bytes, the image wholly inside
memory, an entry point that can be fetched. The hardware checks none of it. -/
def bootReady (p : Params) : Bool :=
  decide (p.memSize ≤ 2 ^ 32) && decide (p.loadBase.toNat + p.image.length ≤ p.memSize)
    && decide ((entryAddress p).toNat % Config.fetchAlign = 0) && decide ((entryAddress p).toNat + 4 ≤ p.memSize)

end Sys2Proof.Machine
end

