-- ==== Sys2Proof/Safety.lean ====
section
/-! DEFINITION. Safety.lean: the terms the claims use: invariants of a run, what a commit, a store, a fault or a halt
changes and leaves alone, and what counts as a safe run. -/

namespace Sys2Proof

open Sys2Proof.Machine

/-! ### Invariants -/

/-- Memory is the array of MEM_SIZE bytes, at most 2^32 of them, in its canonical form (00_scope.md R7, 20_memory.md
R50). -/
abbrev MemoryInv (s : State) : Prop :=
  s.mem.wf ∧ s.mem.within s.memSize ∧ s.memSize ≤ 2 ^ 32

/-- The pc is even: true of every state of a run whose ENTRY is even (10_state.md R28). -/
abbrev EvenPc (s : State) : Prop := s.pc.toNat % 2 = 0

/-- The parameters a run may have: a background in canonical form inside a capacity of at most 2^32 bytes. -/
abbrev Params.wf (p : Params) : Prop :=
  Memory.wf p.background ∧ Memory.within p.background p.memSize ∧ p.memSize ≤ 2 ^ 32

/-! ### Runs -/

/-- A run of n steps from s reaches t. -/
abbrev Reaches (n : Nat) (s t : State) : Prop := core.run n s = .next t

/-- No state the run reaches is Faulted (60_exceptions.md R230). -/
def SafeRun (s : State) : Prop := ∀ n t, Reaches n s t → t.faultRecord = none

/-! ### Words in memory and words of the table -/

/-- The four bytes from address a are the word w, the least significant first (20_memory.md R51). -/
abbrev WordAt (s : State) (a : Nat) (w : Word) : Prop :=
  ∀ k < 4, s.mem.read (a + k) = w.extractLsb' (8 * k) 8

/-- The step at s gets as far as a fetched word w: Running, STOP not set, the pc a multiple of 4, its four bytes below
MEM_SIZE and equal to w (46_step_sequencer.md R211, steps 1 and 2). -/
structure Fetches (s : State) (w : Word) : Prop where
  running : s.runState = .running
  noStop : s.stopNow = false
  aligned : s.pc.toNat % 4 = 0
  inside : s.pc.toNat + 3 < s.memSize
  word : WordAt s s.pc.toNat w

/-- The words of a row of the table of 30_encoding.md R95, and no others, decode to the instruction that f makes of
the word's fields. -/
abbrev RowSelects (mask pattern : Word) (f : Word → Instr) : Prop :=
  ∀ w : Word, w &&& mask = pattern ↔ decode w = .ok (f w)

/-- The address and the number of bytes of an instruction's data access (42_load_store.md R160, 20_memory.md R60). -/
def dataAccess (s : State) : Instr → Option (Word × Nat)
  | .lb _ rs1 imm | .lbu _ rs1 imm => some (s.effectiveAddress rs1 imm, 1)
  | .lh _ rs1 imm | .lhu _ rs1 imm => some (s.effectiveAddress rs1 imm, 2)
  | .lw _ rs1 imm => some (s.effectiveAddress rs1 imm, 4)
  | .sb rs1 _ imm => some (s.effectiveAddress rs1 imm, 1)
  | .sh rs1 _ imm => some (s.effectiveAddress rs1 imm, 2)
  | .sw rs1 _ imm => some (s.effectiveAddress rs1 imm, 4)
  | .lui _ _ | .auipc _ _ | .jal _ _ | .jalr _ _ _ => none
  | .beq _ _ _ | .bne _ _ _ | .blt _ _ _ | .bge _ _ _ | .bltu _ _ _ | .bgeu _ _ _ => none
  | .addi _ _ _ | .slti _ _ _ | .sltiu _ _ _ | .xori _ _ _ | .ori _ _ _ | .andi _ _ _ => none
  | .slli _ _ _ | .srli _ _ _ | .srai _ _ _ => none
  | .add _ _ _ | .sub _ _ _ | .sll _ _ _ | .slt _ _ _ | .sltu _ _ _ => none
  | .xor _ _ _ | .srl _ _ _ | .sra _ _ _ | .or _ _ _ | .and _ _ _ => none
  | .fence _ _ _ | .ecall | .ebreak => none

/-- Whether the instruction stores: SB, SH, SW (42_load_store.md R170). -/
def isStore (i : Instr) : Bool :=
  match i.mnemonic with
  | .sb | .sh | .sw => true
  | .lui | .auipc | .jal | .jalr | .beq | .bne | .blt | .bge | .bltu | .bgeu | .lb | .lh | .lw | .lbu | .lhu => false
  | .addi | .slti | .sltiu | .xori | .ori | .andi | .slli | .srli | .srai => false
  | .add | .sub | .sll | .slt | .sltu | .xor | .srl | .sra | .or | .and | .fence | .ecall | .ebreak => false

/-- Whether the relation of a branch holds, the branch being taken exactly then (43_branch.md R181 to R186); nothing for
an instruction that is no branch. -/
def branchTaken (s : State) : Instr → Option Bool
  | .beq rs1 rs2 _ => some (decide (s.readReg rs1 = s.readReg rs2))
  | .bne rs1 rs2 _ => some (decide (s.readReg rs1 ≠ s.readReg rs2))
  | .blt rs1 rs2 _ => some (decide ((s.readReg rs1).toInt < (s.readReg rs2).toInt))
  | .bge rs1 rs2 _ => some (decide ((s.readReg rs2).toInt ≤ (s.readReg rs1).toInt))
  | .bltu rs1 rs2 _ => some (decide ((s.readReg rs1).toNat < (s.readReg rs2).toNat))
  | .bgeu rs1 rs2 _ => some (decide ((s.readReg rs2).toNat ≤ (s.readReg rs1).toNat))
  | .lui _ _ | .auipc _ _ | .jal _ _ | .jalr _ _ _ => none
  | .lb _ _ _ | .lh _ _ _ | .lw _ _ _ | .lbu _ _ _ | .lhu _ _ _ | .sb _ _ _ | .sh _ _ _ | .sw _ _ _ => none
  | .addi _ _ _ | .slti _ _ _ | .sltiu _ _ _ | .xori _ _ _ | .ori _ _ _ | .andi _ _ _ => none
  | .slli _ _ _ | .srli _ _ _ | .srai _ _ _ => none
  | .add _ _ _ | .sub _ _ _ | .sll _ _ _ | .slt _ _ _ | .sltu _ _ _ => none
  | .xor _ _ _ | .srl _ _ _ | .sra _ _ _ | .or _ _ _ | .and _ _ _ => none
  | .fence _ _ _ | .ecall | .ebreak => none

/-! ### What changes and what does not, from s to t -/

/-- Every register reads as before. -/
abbrev SameRegs (s t : State) : Prop := ∀ r, t.readReg r = s.readReg r

/-- Every byte of memory reads as before. -/
abbrev SameMemory (s t : State) : Prop := ∀ a, t.mem.read a = s.mem.read a

/-- The parameters and the STOP input are as before. -/
abbrev SameInputs (s t : State) : Prop := t.memSize = s.memSize ∧ t.halt = s.halt ∧ t.stop = s.stop

/-- x[rd] takes v (nothing, for x0), the pc takes npc, and nothing else changes. -/
structure WritesReg (s t : State) (rd : Reg) (v npc : Word) : Prop where
  dest : t.readReg rd = if rd = 0 then 0 else v
  regs : ∀ r, r ≠ rd → t.readReg r = s.readReg r
  pc : t.pc = npc
  mem : SameMemory s t
  runState : t.runState = s.runState
  inputs : SameInputs s t

/-- The pc takes npc, and nothing else changes. -/
structure SetsPc (s t : State) (npc : Word) : Prop where
  regs : SameRegs s t
  pc : t.pc = npc
  mem : SameMemory s t
  runState : t.runState = s.runState
  inputs : SameInputs s t

/-- The n bytes from address a take the low n bytes of v, the least significant first, the pc goes to pc + 4, and
nothing else changes. -/
structure StoresBytes (s t : State) (a n : Nat) (v : Word) : Prop where
  bytes : ∀ k < n, t.mem.read (a + k) = v.extractLsb' (8 * k) 8
  others : ∀ b, b < a ∨ a + n ≤ b → t.mem.read b = s.mem.read b
  regs : SameRegs s t
  pc : t.pc = s.pc + 4
  runState : t.runState = s.runState
  inputs : SameInputs s t

/-- The run state becomes r, and no register, no byte and not the pc changes. -/
structure OnlyRunState (s t : State) (r : RunState) : Prop where
  runState : t.runState = r
  regs : SameRegs s t
  pc : t.pc = s.pc
  mem : SameMemory s t
  params : t.memSize = s.memSize ∧ t.halt = s.halt

/-- The run of a list of instructions one after another, as `exec` gives them. -/
def execAll : List Instr → State → Host.Outcome State Fault Refusal
  | [], s => .next s
  | i :: is, s =>
    match exec i s with
    | .next t => execAll is t
    | .fault r => .fault r
    | .refused r => .refused r

end Sys2Proof
end

