-- ==== Sys2Proof/Certificates/Slice0/Obligations.lean ====
section
/-! DEFINITION. Certificates/Slice0/Obligations.lean: the statements for the provers. The numbers of the encodings and
the meaning of the mnemonics are the spec's (30_encoding.md, 92_eei_decisions.md D1); they are general knowledge to its
source. The terms (`WritesReg`, `SetsPc`, `StoresBytes`, `OnlyRunState`, `Fetches`, `RowSelects`) are in Safety.lean. -/

open Sys2Proof Sys2Proof.Machine

/-! ### Encoding -/

/-- Words of the spec's own examples, one for each family, decode to the instructions they stand for. -/
def Obligations.WrittenOutWordsDecode : Prop :=
  decode 0x002081B3#32 = .ok (.add 3 1 2) ∧
  decode 0xFFD28313#32 = .ok (.addi 6 5 (-3)) ∧
  decode 0x41F0D193#32 = .ok (.srai 3 1 31) ∧
  decode 0x12345297#32 = .ok (.auipc 5 0x12345000#32) ∧
  decode 0xFFE09183#32 = .ok (.lh 3 1 (-2)) ∧
  decode 0xFE209FA3#32 = .ok (.sh 1 2 (-1)) ∧
  decode 0xFE209EE3#32 = .ok (.bne 1 2 (-4)) ∧
  decode 0xFF9FF06F#32 = .ok (.jal 0 (-8)) ∧
  decode 0xFFD080E7#32 = .ok (.jalr 1 1 (-3)) ∧
  decode 0x0FF0000F#32 = .ok (.fence 0 0 0xFF#32) ∧
  decode 0x00100073#32 = .ok .ebreak

/-- Decode gives back every well-formed instruction from its encoding, every operand at every value. -/
def Obligations.DecodeInvertsEncode : Prop :=
  ∀ i : Instr, i.wf = true → decode (encode i) = .ok i

/-- Every legal word is reproduced, all 32 bits of it, by encoding what it decodes to, and what it decodes to is well
formed. R93 derives the law for the formats other than R, so this is derived. -/
def Obligations.ReencodingReproducesTheWord : Prop :=
  ∀ (w : Word) (i : Instr), decode w = .ok i → encode i = w ∧ i.wf = true

/-- The five immediates bit by bit (R90), their ranges and parity (R88, R89), and that the decoded instruction has the one
of its format. The bit positions are the spec's decision D1 (general knowledge to its source, notes/assumptions/10.md). -/
def Obligations.ImmediatesAreTheStatedBits : Prop :=
  ∀ w : Word,
    (∀ k < 32, (Bits.immI w).getLsbD k = if k ≤ 10 then w.getLsbD (k + 20) else w.getLsbD 31) ∧
    (∀ k < 32, (Bits.immS w).getLsbD k =
      if k ≤ 4 then w.getLsbD (k + 7) else if k ≤ 10 then w.getLsbD (k + 20) else w.getLsbD 31) ∧
    (∀ k < 32, (Bits.immB w).getLsbD k =
      if k = 0 then false else if k ≤ 4 then w.getLsbD (k + 7) else if k ≤ 10 then w.getLsbD (k + 20)
      else if k = 11 then w.getLsbD 7 else w.getLsbD 31) ∧
    (∀ k < 32, (Bits.immU w).getLsbD k = if k ≤ 11 then false else w.getLsbD k) ∧
    (∀ k < 32, (Bits.immJ w).getLsbD k =
      if k = 0 then false else if k ≤ 10 then w.getLsbD (k + 20) else if k = 11 then w.getLsbD 20
      else if k ≤ 19 then w.getLsbD k else w.getLsbD 31) ∧
    (-2048 ≤ (Bits.immI w).toInt ∧ (Bits.immI w).toInt ≤ 2047) ∧
    (-2048 ≤ (Bits.immS w).toInt ∧ (Bits.immS w).toInt ≤ 2047) ∧
    (-4096 ≤ (Bits.immB w).toInt ∧ (Bits.immB w).toInt ≤ 4094 ∧ (Bits.immB w).toInt % 2 = 0) ∧
    (Bits.immU w).toInt % 4096 = 0 ∧
    (-1048576 ≤ (Bits.immJ w).toInt ∧ (Bits.immJ w).toInt ≤ 1048574 ∧ (Bits.immJ w).toInt % 2 = 0) ∧
    (∀ i, decode w = .ok i → i.imm = match i.mnemonic.format with
      | .R => none
      | .I => some (Bits.immI w)
      | .S => some (Bits.immS w)
      | .B => some (Bits.immB w)
      | .U => some (Bits.immU w)
      | .J => some (Bits.immJ w))

/-- The components of a decoded instruction (R92): those its format has are the word's bits, at the places of R81 and
with the immediate of R88, and those it lacks are absent. The bit positions of R81 to R87 are the spec's decision D1
(general knowledge to its source, notes/assumptions/10.md). -/
def Obligations.DecodedFieldsAreTheWordsBits : Prop :=
  ∀ (w : Word) (i : Instr), decode w = .ok i →
    i.mnemonic.opcode.toNat = w.toNat % 128 ∧
    (i.mnemonic.format = .R →
      i.rd.map Fin.val = some (w.toNat / 2 ^ 7 % 32) ∧ i.mnemonic.funct3.map BitVec.toNat = some (w.toNat / 2 ^ 12 % 8) ∧
      i.rs1.map Fin.val = some (w.toNat / 2 ^ 15 % 32) ∧ i.rs2.map Fin.val = some (w.toNat / 2 ^ 20 % 32) ∧
      i.mnemonic.funct7.map BitVec.toNat = some (w.toNat / 2 ^ 25) ∧ i.imm = none) ∧
    (i.mnemonic.format = .I →
      i.rd.map Fin.val = some (w.toNat / 2 ^ 7 % 32) ∧ i.mnemonic.funct3.map BitVec.toNat = some (w.toNat / 2 ^ 12 % 8) ∧
      i.rs1.map Fin.val = some (w.toNat / 2 ^ 15 % 32) ∧ i.rs2 = none ∧ i.mnemonic.funct7 = none ∧
      i.imm = some (Bits.immI w)) ∧
    (i.mnemonic.format = .S →
      i.rd = none ∧ i.mnemonic.funct3.map BitVec.toNat = some (w.toNat / 2 ^ 12 % 8) ∧
      i.rs1.map Fin.val = some (w.toNat / 2 ^ 15 % 32) ∧ i.rs2.map Fin.val = some (w.toNat / 2 ^ 20 % 32) ∧
      i.mnemonic.funct7 = none ∧ i.imm = some (Bits.immS w)) ∧
    (i.mnemonic.format = .B →
      i.rd = none ∧ i.mnemonic.funct3.map BitVec.toNat = some (w.toNat / 2 ^ 12 % 8) ∧
      i.rs1.map Fin.val = some (w.toNat / 2 ^ 15 % 32) ∧ i.rs2.map Fin.val = some (w.toNat / 2 ^ 20 % 32) ∧
      i.mnemonic.funct7 = none ∧ i.imm = some (Bits.immB w)) ∧
    (i.mnemonic.format = .U →
      i.rd.map Fin.val = some (w.toNat / 2 ^ 7 % 32) ∧ i.mnemonic.funct3 = none ∧ i.rs1 = none ∧ i.rs2 = none ∧
      i.mnemonic.funct7 = none ∧ i.imm = some (Bits.immU w)) ∧
    (i.mnemonic.format = .J →
      i.rd.map Fin.val = some (w.toNat / 2 ^ 7 % 32) ∧ i.mnemonic.funct3 = none ∧ i.rs1 = none ∧ i.rs2 = none ∧
      i.mnemonic.funct7 = none ∧ i.imm = some (Bits.immJ w))

/-- A word is the instruction of a row exactly when `(w AND mask) = match`, and no word is in two rows (R95). -/
def Obligations.RowsSelectByMaskAndMatch : Prop :=
  (∀ (w : Word) (m : Mnemonic), w &&& m.mask = m.matchWord ↔ ∃ i, decode w = .ok i ∧ i.mnemonic = m) ∧
  (∀ (w : Word) (m n : Mnemonic), w &&& m.mask = m.matchWord → w &&& n.mask = n.matchWord → m = n)

/-- The illegal words of R100: a word that matches no row, and each class the rule names. That an illegal word raises
DecodeError rather than UnsupportedInstruction is the spec's decision D2. -/
def Obligations.WordsOutsideTheTableAreIllegal : Prop :=
  ∀ w : Word,
    ((∀ m : Mnemonic, w &&& m.mask ≠ m.matchWord) ↔ ∃ e, decode w = .error e) ∧
    (w = 0x00000000#32 ∨ w = 0xFFFFFFFF#32 ∨ w.toNat % 4 ≠ 3 ∨
      Bits.opcode w ∉ [0x37#7, 0x17#7, 0x6F#7, 0x67#7, 0x63#7, 0x03#7, 0x23#7, 0x13#7, 0x33#7, 0x0F#7, 0x73#7] ∨
      (Bits.opcode w = 0x33#7 ∧ Bits.funct7 w ≠ 0#7 ∧ Bits.funct7 w ≠ 0x20#7) ∨
      (Bits.opcode w = 0x33#7 ∧ Bits.funct7 w = 0x20#7 ∧ Bits.funct3 w ≠ 0#3 ∧ Bits.funct3 w ≠ 5#3) ∨
      (Bits.opcode w = 0x13#7 ∧ Bits.funct3 w = 1#3 ∧ Bits.funct7 w ≠ 0#7) ∨
      (Bits.opcode w = 0x13#7 ∧ Bits.funct3 w = 5#3 ∧ Bits.funct7 w ≠ 0#7 ∧ Bits.funct7 w ≠ 0x20#7) ∨
      (Bits.opcode w = 0x63#7 ∧ (Bits.funct3 w = 2#3 ∨ Bits.funct3 w = 3#3)) ∨
      (Bits.opcode w = 0x03#7 ∧ (Bits.funct3 w = 3#3 ∨ Bits.funct3 w = 6#3 ∨ Bits.funct3 w = 7#3)) ∨
      (Bits.opcode w = 0x23#7 ∧ 3 ≤ (Bits.funct3 w).toNat) ∨
      (Bits.opcode w = 0x67#7 ∧ Bits.funct3 w ≠ 0#3) ∨
      (Bits.opcode w = 0x0F#7 ∧ Bits.funct3 w ≠ 0#3) ∨
      (Bits.opcode w = 0x73#7 ∧ w ≠ 0x00000073#32 ∧ w ≠ 0x00100073#32) →
      ∃ e, decode w = .error e)

/-! ### State and reset -/

/-- Register reads and writes: x0 reads zero and discards writes, a written register reads back, and nothing else
changes: no other register, not the pc, no byte of memory, not the run state with its fault record, no parameter and not
STOP (R23; R22 for the value read). -/
def Obligations.RegisterFileReadsAndWrites : Prop :=
  ∀ (s : State) (i : Reg) (v : Word),
    s.readReg 0 = 0 ∧
    s.writeReg 0 v = s ∧
    (i ≠ 0 → (s.writeReg i v).readReg i = v) ∧
    (∀ j, j ≠ i → (s.writeReg i v).readReg j = s.readReg j) ∧
    (s.writeReg i v).pc = s.pc ∧ SameMemory s (s.writeReg i v) ∧
    (s.writeReg i v).runState = s.runState ∧ SameInputs s (s.writeReg i v)

/-- A run starts at ENTRY, which is LOAD_BASE when the host gives none (R41), in Running, with no fault record and with
x0 zero: for every value of the parameters. -/
def Obligations.ResetStartsRunningAtTheEntry : Prop :=
  ∀ (p : Params) (stop : List Bool),
    (∀ e, p.entry = some e → (State.resetWith p stop).pc = e) ∧
    (p.entry = none → (State.resetWith p stop).pc = p.loadBase) ∧
    (State.resetWith p stop).runState = .running ∧
    (State.resetWith p stop).faultRecord = none ∧
    (State.resetWith p stop).readReg 0 = 0

/-- Reset leaves x1 to x31 at REG_INIT and memory at MEM_INIT, that REG_INIT and the rest of MEM_INIT are the host's being
the spec's decision D15; that MEM_INIT is an image at LOAD_BASE over a background is the model's form of it
(notes/assumptions/26.md). For every value of the parameters; it does not rest on those `State.reset` names. -/
def Obligations.ResetTakesTheParameters : Prop :=
  ∀ (p : Params) (stop : List Bool), p.wf →
    (∀ (i : Reg) (h : i ≠ 0), (State.resetWith p stop).readReg i =
      p.regInit[i.val - 1]'(by have := i.isLt; have : i.val ≠ 0 := fun e => h (Fin.ext e); omega)) ∧
    (∀ a < p.memSize, (State.resetWith p stop).mem.read a =
      if h : p.loadBase.toNat ≤ a ∧ a < p.loadBase.toNat + p.image.length then
        p.image[a - p.loadBase.toNat]'(by omega)
      else Memory.read p.background a)

/-- Reset has the invariants: with parameters a run may have, and in `State.reset`, whose pc, memory and MEM_SIZE are
the model's choice (notes/assumptions/5.md to 7.md). -/
def Obligations.ResetMeetsTheInvariants : Prop :=
  (∀ (p : Params) (stop : List Bool), p.wf → MemoryInv (State.resetWith p stop)) ∧
  (∀ (p : Params) (stop : List Bool), (entryAddress p).toNat % 2 = 0 → EvenPc (State.resetWith p stop)) ∧
  MemoryInv State.reset ∧ EvenPc State.reset ∧ State.reset.runState = .running

/-- Every step keeps memory an array of MEM_SIZE bytes in canonical form, from every state that has it. -/
def Obligations.StepKeepsMemoryCanonical : Prop :=
  ∀ s t : State, MemoryInv s → step s = .next t → MemoryInv t

/-- Every step keeps the pc even, from every state with an even pc: targets are always even, so a pc that is not a
multiple of 4 is 2 modulo 4 unless ENTRY was odd (R28). -/
def Obligations.StepKeepsThePcEven : Prop :=
  ∀ s t : State, EvenPc s → step s = .next t → EvenPc t ∧ (t.pc.toNat % 4 ≠ 0 → t.pc.toNat % 4 = 2)

/-! ### Memory -/

/-- The bounds check of R55 on reads and writes of any width: unbounded sum, no wrap, the whole access first, nothing
with MEM_SIZE = 0. The unbounded sum and the whole-access check are the spec's decisions D10 and D12. -/
def Obligations.BoundsCheckCoversTheWholeAccess : Prop :=
  ∀ (s : State) (a : Word) (n : Nat), n ∈ [1, 2, 4] →
    ((s.memRead a n).isSome ↔ a.toNat + n - 1 < s.memSize) ∧
    (∀ bytes : List Byte, bytes.length = n → ((s.memWrite a bytes).isSome ↔ a.toNat + n - 1 < s.memSize)) ∧
    (s.memSize = 0 → s.memRead a n = none)

/-- `MemRead`: bits 8k+7:8k of the result are `mem[u(a)+k]`, for 1, 2 and 4 bytes, raw; out of bounds there is no
value. That the unit returns raw bits is the spec's decision D16. -/
def Obligations.MemReadIsLittleEndian : Prop :=
  ∀ (s : State) (a : Word),
    (∀ v, s.loadByte a = some v ↔ a.toNat < s.memSize ∧ v = s.mem.read a.toNat) ∧
    (∀ v, s.loadHalf a = some v ↔
      a.toNat + 1 < s.memSize ∧ ∀ k < 2, v.extractLsb' (8 * k) 8 = s.mem.read (a.toNat + k)) ∧
    (∀ v, s.loadWord a = some v ↔
      a.toNat + 3 < s.memSize ∧ ∀ k < 4, v.extractLsb' (8 * k) 8 = s.mem.read (a.toNat + k))

/-- `MemWrite` (R57): `mem[u(a)+k] <- v[8k+7:8k]` for 1, 2 and 4 bytes, and no other byte changes; out of bounds (R55) it
raises (nothing is stored). Nothing but memory changes. The unbounded sum of the bound is the spec's decision D10
(notes/assumptions/15.md), and that no byte of a partly out-of-bounds store is written is D12
(notes/assumptions/16.md). -/
def Obligations.MemWriteStoresExactlyItsBytes : Prop :=
  ∀ (s : State) (a : Word) (v : Word) (n : Nat) (r : Option State), s.mem.wf →
    ((n = 1 ∧ r = s.storeByte a (v.setWidth 8)) ∨ (n = 2 ∧ r = s.storeHalf a (v.setWidth 16)) ∨
      (n = 4 ∧ r = s.storeWord a v)) →
    (s.memSize ≤ a.toNat + n - 1 → r = none) ∧
    (a.toNat + n - 1 < s.memSize → ∃ t, r = some t ∧
      (∀ k < n, t.mem.read (a.toNat + k) = v.extractLsb' (8 * k) 8) ∧
      (∀ b, b < a.toNat ∨ a.toNat + n ≤ b → t.mem.read b = s.mem.read b) ∧
      SameRegs s t ∧ t.pc = s.pc ∧ t.runState = s.runState ∧ SameInputs s t)

/-- A store that does not raise, then a load of the same width at the same address, returns the stored value (R58,
which the spec derives). -/
def Obligations.StoreThenLoadReturnsTheValue : Prop :=
  ∀ (s t : State) (a : Word), s.mem.wf →
    (∀ v, s.storeByte a v = some t → t.loadByte a = some v) ∧
    (∀ v, s.storeHalf a v = some t → t.loadHalf a = some v) ∧
    (∀ v, s.storeWord a v = some t → t.loadWord a = some v)

/-- Little-endian (R51): after a word is stored, its byte k and its half k read back alone,
in a memory of the canonical form and of a capacity the parameter MEM_SIZE allows, and a fetch from there gives the word. -/
def Obligations.NarrowReadsSeeTheStoredWord : Prop :=
  ∀ (s t : State) (a v : Word), MemoryInv s → s.storeWord a v = some t →
    (∀ k < 4, t.loadByte (a + BitVec.ofNat 32 k) = some (v.extractLsb' (8 * k) 8)) ∧
    (∀ k < 2, t.loadHalf (a + BitVec.ofNat 32 (2 * k)) = some (v.extractLsb' (16 * k) 16)) ∧
    (s.pc = a → a.toNat % 4 = 0 → t.fetch = .ok v)

/-- Two memories in canonical form with equal bytes are equal: the form loses nothing and adds nothing (the model's
choice of form, notes/assumptions/5.md). -/
def Obligations.CanonicalMemoriesWithEqualBytesAreEqual : Prop :=
  ∀ m n : Memory, m.wf → n.wf → (∀ a, m.read a = n.read a) → m = n

/-! ### Integer computational instructions -/

/-- ADD, SUB, ADDI: modulo 2^32; they always complete, write only x[rd] and the pc (R121, R122, R131). -/
def Obligations.AddSubAddiResults : Prop :=
  RowSelects 0xFE00707F#32 0x00000033#32 (fun w => .add (Bits.rd w) (Bits.rs1 w) (Bits.rs2 w)) ∧
  RowSelects 0xFE00707F#32 0x40000033#32 (fun w => .sub (Bits.rd w) (Bits.rs1 w) (Bits.rs2 w)) ∧
  RowSelects 0x0000707F#32 0x00000013#32 (fun w => .addi (Bits.rd w) (Bits.rs1 w) (Bits.immI w)) ∧
  (∀ (rd rs1 rs2 : Reg) (s : State), ∃ t v, exec (.add rd rs1 rs2) s = .next t ∧ WritesReg s t rd v (s.pc + 4) ∧
    v.toNat = ((s.readReg rs1).toNat + (s.readReg rs2).toNat) % 2 ^ 32) ∧
  (∀ (rd rs1 rs2 : Reg) (s : State), ∃ t v, exec (.sub rd rs1 rs2) s = .next t ∧ WritesReg s t rd v (s.pc + 4) ∧
    (v.toNat : Int) = ((s.readReg rs1).toNat - (s.readReg rs2).toNat : Int) % 2 ^ 32) ∧
  (∀ (rd rs1 : Reg) (imm : Word) (s : State), ∃ t v, exec (.addi rd rs1 imm) s = .next t ∧
    WritesReg s t rd v (s.pc + 4) ∧ (v.toNat : Int) = ((s.readReg rs1).toInt + imm.toInt) % 2 ^ 32)

/-- XOR, OR, AND, XORI, ORI, ANDI: bit by bit (R126, R129, R130, R134, R135, R136). -/
def Obligations.LogicalResults : Prop :=
  RowSelects 0xFE00707F#32 0x00004033#32 (fun w => .xor (Bits.rd w) (Bits.rs1 w) (Bits.rs2 w)) ∧
  RowSelects 0xFE00707F#32 0x00006033#32 (fun w => .or (Bits.rd w) (Bits.rs1 w) (Bits.rs2 w)) ∧
  RowSelects 0xFE00707F#32 0x00007033#32 (fun w => .and (Bits.rd w) (Bits.rs1 w) (Bits.rs2 w)) ∧
  RowSelects 0x0000707F#32 0x00004013#32 (fun w => .xori (Bits.rd w) (Bits.rs1 w) (Bits.immI w)) ∧
  RowSelects 0x0000707F#32 0x00006013#32 (fun w => .ori (Bits.rd w) (Bits.rs1 w) (Bits.immI w)) ∧
  RowSelects 0x0000707F#32 0x00007013#32 (fun w => .andi (Bits.rd w) (Bits.rs1 w) (Bits.immI w)) ∧
  (∀ (rd rs1 rs2 : Reg) (s : State),
    (∃ t v, exec (.xor rd rs1 rs2) s = .next t ∧ WritesReg s t rd v (s.pc + 4) ∧
      ∀ k < 32, v.getLsbD k = ((s.readReg rs1).getLsbD k != (s.readReg rs2).getLsbD k)) ∧
    (∃ t v, exec (.or rd rs1 rs2) s = .next t ∧ WritesReg s t rd v (s.pc + 4) ∧
      ∀ k < 32, v.getLsbD k = ((s.readReg rs1).getLsbD k || (s.readReg rs2).getLsbD k)) ∧
    (∃ t v, exec (.and rd rs1 rs2) s = .next t ∧ WritesReg s t rd v (s.pc + 4) ∧
      ∀ k < 32, v.getLsbD k = ((s.readReg rs1).getLsbD k && (s.readReg rs2).getLsbD k))) ∧
  (∀ (rd rs1 : Reg) (imm : Word) (s : State),
    (∃ t v, exec (.xori rd rs1 imm) s = .next t ∧ WritesReg s t rd v (s.pc + 4) ∧
      ∀ k < 32, v.getLsbD k = ((s.readReg rs1).getLsbD k != imm.getLsbD k)) ∧
    (∃ t v, exec (.ori rd rs1 imm) s = .next t ∧ WritesReg s t rd v (s.pc + 4) ∧
      ∀ k < 32, v.getLsbD k = ((s.readReg rs1).getLsbD k || imm.getLsbD k)) ∧
    (∃ t v, exec (.andi rd rs1 imm) s = .next t ∧ WritesReg s t rd v (s.pc + 4) ∧
      ∀ k < 32, v.getLsbD k = ((s.readReg rs1).getLsbD k && imm.getLsbD k)))

/-- SLT, SLTI signed and SLTU, SLTIU unsigned: 1 when strictly less, else 0 (R124, R125, R132, R133). -/
def Obligations.ComparisonResults : Prop :=
  RowSelects 0xFE00707F#32 0x00002033#32 (fun w => .slt (Bits.rd w) (Bits.rs1 w) (Bits.rs2 w)) ∧
  RowSelects 0xFE00707F#32 0x00003033#32 (fun w => .sltu (Bits.rd w) (Bits.rs1 w) (Bits.rs2 w)) ∧
  RowSelects 0x0000707F#32 0x00002013#32 (fun w => .slti (Bits.rd w) (Bits.rs1 w) (Bits.immI w)) ∧
  RowSelects 0x0000707F#32 0x00003013#32 (fun w => .sltiu (Bits.rd w) (Bits.rs1 w) (Bits.immI w)) ∧
  (∀ (rd rs1 rs2 : Reg) (s : State),
    (∃ t, exec (.slt rd rs1 rs2) s = .next t ∧
      WritesReg s t rd (if (s.readReg rs1).toInt < (s.readReg rs2).toInt then 1 else 0) (s.pc + 4)) ∧
    (∃ t, exec (.sltu rd rs1 rs2) s = .next t ∧
      WritesReg s t rd (if (s.readReg rs1).toNat < (s.readReg rs2).toNat then 1 else 0) (s.pc + 4))) ∧
  (∀ (rd rs1 : Reg) (imm : Word) (s : State),
    (∃ t, exec (.slti rd rs1 imm) s = .next t ∧
      WritesReg s t rd (if (s.readReg rs1).toInt < imm.toInt then 1 else 0) (s.pc + 4)) ∧
    (∃ t, exec (.sltiu rd rs1 imm) s = .next t ∧
      WritesReg s t rd (if (s.readReg rs1).toNat < imm.toNat then 1 else 0) (s.pc + 4)))

/-- The shifts: by the low 5 bits of the second operand; left and logical right fill with zeros, arithmetic right is
the floor of the signed quotient. A shift-immediate word with other bits 31:25 is illegal (R123, R127, R128, R137 to
R139). -/
def Obligations.ShiftResults : Prop :=
  RowSelects 0xFE00707F#32 0x00001033#32 (fun w => .sll (Bits.rd w) (Bits.rs1 w) (Bits.rs2 w)) ∧
  RowSelects 0xFE00707F#32 0x00005033#32 (fun w => .srl (Bits.rd w) (Bits.rs1 w) (Bits.rs2 w)) ∧
  RowSelects 0xFE00707F#32 0x40005033#32 (fun w => .sra (Bits.rd w) (Bits.rs1 w) (Bits.rs2 w)) ∧
  RowSelects 0xFE00707F#32 0x00001013#32 (fun w => .slli (Bits.rd w) (Bits.rs1 w) (w.extractLsb' 20 5)) ∧
  RowSelects 0xFE00707F#32 0x00005013#32 (fun w => .srli (Bits.rd w) (Bits.rs1 w) (w.extractLsb' 20 5)) ∧
  RowSelects 0xFE00707F#32 0x40005013#32 (fun w => .srai (Bits.rd w) (Bits.rs1 w) (w.extractLsb' 20 5)) ∧
  (∀ w : Word, Bits.opcode w = 0x13#7 → Bits.funct3 w = 1#3 → Bits.funct7 w ≠ 0#7 → ∃ e, decode w = .error e) ∧
  (∀ w : Word, Bits.opcode w = 0x13#7 → Bits.funct3 w = 5#3 → Bits.funct7 w ≠ 0#7 → Bits.funct7 w ≠ 0x20#7 →
    ∃ e, decode w = .error e) ∧
  (∀ (rd rs1 : Reg) (shamt : BitVec 5),
    (Instr.srai rd rs1 shamt).imm = some (0x00000400#32 + BitVec.ofNat 32 shamt.toNat)) ∧
  (∀ (rd rs1 rs2 : Reg) (s : State),
    (∃ t v, exec (.sll rd rs1 rs2) s = .next t ∧ WritesReg s t rd v (s.pc + 4) ∧
      v.toNat = (s.readReg rs1).toNat * 2 ^ ((s.readReg rs2).toNat % 32) % 2 ^ 32) ∧
    (∃ t v, exec (.srl rd rs1 rs2) s = .next t ∧ WritesReg s t rd v (s.pc + 4) ∧
      v.toNat = (s.readReg rs1).toNat / 2 ^ ((s.readReg rs2).toNat % 32)) ∧
    (∃ t v, exec (.sra rd rs1 rs2) s = .next t ∧ WritesReg s t rd v (s.pc + 4) ∧
      v.toInt = (s.readReg rs1).toInt / 2 ^ ((s.readReg rs2).toNat % 32))) ∧
  (∀ (rd rs1 : Reg) (shamt : BitVec 5) (s : State),
    (∃ t v, exec (.slli rd rs1 shamt) s = .next t ∧ WritesReg s t rd v (s.pc + 4) ∧
      v.toNat = (s.readReg rs1).toNat * 2 ^ shamt.toNat % 2 ^ 32) ∧
    (∃ t v, exec (.srli rd rs1 shamt) s = .next t ∧ WritesReg s t rd v (s.pc + 4) ∧
      v.toNat = (s.readReg rs1).toNat / 2 ^ shamt.toNat) ∧
    (∃ t v, exec (.srai rd rs1 shamt) s = .next t ∧ WritesReg s t rd v (s.pc + 4) ∧
      v.toInt = (s.readReg rs1).toInt / 2 ^ shamt.toNat))

/-- LUI places the 20 bits above twelve zeros; AUIPC adds that to the pc of the AUIPC itself, modulo 2^32 (R150, R151,
R152). -/
def Obligations.UpperImmediateResults : Prop :=
  RowSelects 0x0000007F#32 0x00000037#32 (fun w => .lui (Bits.rd w) (w.extractLsb' 12 20 ++ 0#12)) ∧
  RowSelects 0x0000007F#32 0x00000017#32 (fun w => .auipc (Bits.rd w) (w.extractLsb' 12 20 ++ 0#12)) ∧
  (∀ (rd : Reg) (imm : Word) (s : State),
    (∃ t, exec (.lui rd imm) s = .next t ∧ WritesReg s t rd imm (s.pc + 4)) ∧
    (∃ t v, exec (.auipc rd imm) s = .next t ∧ WritesReg s t rd v (s.pc + 4) ∧
      v.toNat = (s.pc.toNat + imm.toNat) % 2 ^ 32))

/-! ### Loads and stores -/

/-- The loads: in bounds, x[rd] takes the little-endian bytes at x[rs1] + imm, sign- or zero-extended, and nothing but
x[rd] and the pc changes; out of bounds, the state becomes Faulted with OutOfBounds at that address, also when rd is
x0, and nothing else changes (R161 to R165, R169). That a faulting load leaves memory and the pc alone is the spec's
decision D12 (R236; notes/assumptions/16.md), the fields of its record D13. -/
def Obligations.LoadResults : Prop :=
  RowSelects 0x0000707F#32 0x00000003#32 (fun w => .lb (Bits.rd w) (Bits.rs1 w) (Bits.immI w)) ∧
  RowSelects 0x0000707F#32 0x00001003#32 (fun w => .lh (Bits.rd w) (Bits.rs1 w) (Bits.immI w)) ∧
  RowSelects 0x0000707F#32 0x00002003#32 (fun w => .lw (Bits.rd w) (Bits.rs1 w) (Bits.immI w)) ∧
  RowSelects 0x0000707F#32 0x00004003#32 (fun w => .lbu (Bits.rd w) (Bits.rs1 w) (Bits.immI w)) ∧
  RowSelects 0x0000707F#32 0x00005003#32 (fun w => .lhu (Bits.rd w) (Bits.rs1 w) (Bits.immI w)) ∧
  (∀ (rd rs1 : Reg) (imm : Word) (s : State) (ea : Nat),
    ea = ((s.readReg rs1).toNat + imm.toNat) % 2 ^ 32 →
    (ea < s.memSize →
      (∃ t v, exec (.lb rd rs1 imm) s = .next t ∧ WritesReg s t rd v (s.pc + 4) ∧
        v.toInt = (s.mem.read ea).toInt) ∧
      (∃ t v, exec (.lbu rd rs1 imm) s = .next t ∧ WritesReg s t rd v (s.pc + 4) ∧
        v.toNat = (s.mem.read ea).toNat)) ∧
    (ea + 1 < s.memSize →
      (∃ t v, exec (.lh rd rs1 imm) s = .next t ∧ WritesReg s t rd v (s.pc + 4) ∧
        v.toInt = (s.mem.read (ea + 1) ++ s.mem.read ea).toInt) ∧
      (∃ t v, exec (.lhu rd rs1 imm) s = .next t ∧ WritesReg s t rd v (s.pc + 4) ∧
        v.toNat = (s.mem.read (ea + 1) ++ s.mem.read ea).toNat)) ∧
    (ea + 3 < s.memSize → ∃ t, exec (.lw rd rs1 imm) s = .next t ∧
      WritesReg s t rd (s.mem.read (ea + 3) ++ s.mem.read (ea + 2) ++ s.mem.read (ea + 1) ++ s.mem.read ea)
        (s.pc + 4)) ∧
    (∀ i n, (i, n) ∈ [(Instr.lb rd rs1 imm, 1), (.lbu rd rs1 imm, 1), (.lh rd rs1 imm, 2), (.lhu rd rs1 imm, 2),
        (.lw rd rs1 imm, 4)] → s.memSize ≤ ea + n - 1 →
      ∃ t r, exec i s = .next t ∧ t.stop = s.stop ∧ OnlyRunState s t (.faulted r) ∧ r.kind = .outOfBounds ∧
        r.addr.toNat = ea))

/-- The stores: in bounds, the low bytes of x[rs2] go to x[rs1] + imm and on, and nothing but those bytes and the pc
changes; out of bounds, also by one byte, no byte is written and the state becomes Faulted with OutOfBounds at that
address, and no register and not the pc changes (R166 to R169). That a faulting store changes nothing is the spec's
decision D12 (R236; notes/assumptions/16.md), the fields of its record D13. -/
def Obligations.StoreResults : Prop :=
  RowSelects 0x0000707F#32 0x00000023#32 (fun w => .sb (Bits.rs1 w) (Bits.rs2 w) (Bits.immS w)) ∧
  RowSelects 0x0000707F#32 0x00001023#32 (fun w => .sh (Bits.rs1 w) (Bits.rs2 w) (Bits.immS w)) ∧
  RowSelects 0x0000707F#32 0x00002023#32 (fun w => .sw (Bits.rs1 w) (Bits.rs2 w) (Bits.immS w)) ∧
  (∀ (rs1 rs2 : Reg) (imm : Word) (s : State) (i : Instr) (n : Nat), s.mem.wf →
    (s.effectiveAddress rs1 imm).toNat = ((s.readReg rs1).toNat + imm.toNat) % 2 ^ 32 ∧
    ((i, n) ∈ [(Instr.sb rs1 rs2 imm, 1), (.sh rs1 rs2 imm, 2), (.sw rs1 rs2 imm, 4)] →
      ((s.effectiveAddress rs1 imm).toNat + n - 1 < s.memSize → ∃ t, exec i s = .next t ∧
        StoresBytes s t (s.effectiveAddress rs1 imm).toNat n (s.readReg rs2)) ∧
      (s.memSize ≤ (s.effectiveAddress rs1 imm).toNat + n - 1 → ∃ t r, exec i s = .next t ∧ t.stop = s.stop ∧
        OnlyRunState s t (.faulted r) ∧ r.kind = .outOfBounds ∧ r.addr = s.effectiveAddress rs1 imm)))

/-! ### Control flow -/

/-- The branches: taken exactly when the relation holds, to pc + imm modulo 2^32, else pc + 4; they complete whatever
the target, and change nothing but the pc (R181 to R186). -/
def Obligations.BranchResults : Prop :=
  RowSelects 0x0000707F#32 0x00000063#32 (fun w => .beq (Bits.rs1 w) (Bits.rs2 w) (Bits.immB w)) ∧
  RowSelects 0x0000707F#32 0x00001063#32 (fun w => .bne (Bits.rs1 w) (Bits.rs2 w) (Bits.immB w)) ∧
  RowSelects 0x0000707F#32 0x00004063#32 (fun w => .blt (Bits.rs1 w) (Bits.rs2 w) (Bits.immB w)) ∧
  RowSelects 0x0000707F#32 0x00005063#32 (fun w => .bge (Bits.rs1 w) (Bits.rs2 w) (Bits.immB w)) ∧
  RowSelects 0x0000707F#32 0x00006063#32 (fun w => .bltu (Bits.rs1 w) (Bits.rs2 w) (Bits.immB w)) ∧
  RowSelects 0x0000707F#32 0x00007063#32 (fun w => .bgeu (Bits.rs1 w) (Bits.rs2 w) (Bits.immB w)) ∧
  (∀ (rs1 rs2 : Reg) (imm : Word) (s : State),
    (∃ t, exec (.beq rs1 rs2 imm) s = .next t ∧
      SetsPc s t (if s.readReg rs1 = s.readReg rs2 then s.pc + imm else s.pc + 4)) ∧
    (∃ t, exec (.bne rs1 rs2 imm) s = .next t ∧
      SetsPc s t (if s.readReg rs1 ≠ s.readReg rs2 then s.pc + imm else s.pc + 4)) ∧
    (∃ t, exec (.blt rs1 rs2 imm) s = .next t ∧
      SetsPc s t (if (s.readReg rs1).toInt < (s.readReg rs2).toInt then s.pc + imm else s.pc + 4)) ∧
    (∃ t, exec (.bge rs1 rs2 imm) s = .next t ∧
      SetsPc s t (if (s.readReg rs2).toInt ≤ (s.readReg rs1).toInt then s.pc + imm else s.pc + 4)) ∧
    (∃ t, exec (.bltu rs1 rs2 imm) s = .next t ∧
      SetsPc s t (if (s.readReg rs1).toNat < (s.readReg rs2).toNat then s.pc + imm else s.pc + 4)) ∧
    (∃ t, exec (.bgeu rs1 rs2 imm) s = .next t ∧
      SetsPc s t (if (s.readReg rs2).toNat ≤ (s.readReg rs1).toNat then s.pc + imm else s.pc + 4)))

/-- JAL: x[rd] takes pc + 4, the pc takes pc + imm, both modulo 2^32 and of the JAL's own address; it completes
whatever the target (R191). -/
def Obligations.JalResults : Prop :=
  RowSelects 0x0000007F#32 0x0000006F#32 (fun w => .jal (Bits.rd w) (Bits.immJ w)) ∧
  (∀ (rd : Reg) (imm : Word) (s : State), ∃ t npc, exec (.jal rd imm) s = .next t ∧
    WritesReg s t rd (s.pc + 4) npc ∧ npc.toNat = (s.pc.toNat + imm.toNat) % 2 ^ 32)

/-- JALR: the target is x[rs1] + imm modulo 2^32 with bit 0 cleared, x[rs1] being its value before x[rd] takes pc + 4,
also when rd is rs1 (the spec's decision D17). -/
def Obligations.JalrResults : Prop :=
  RowSelects 0x0000707F#32 0x00000067#32 (fun w => .jalr (Bits.rd w) (Bits.rs1 w) (Bits.immI w)) ∧
  (∀ (rd rs1 : Reg) (imm : Word) (s : State), ∃ t npc, exec (.jalr rd rs1 imm) s = .next t ∧
    WritesReg s t rd (s.pc + 4) npc ∧
    npc.toNat = ((s.readReg rs1).toNat + imm.toNat) % 2 ^ 32 / 2 * 2)

/-- A jump to a bad target completes, link and all, and the next step's fetch faults at the target: MisalignedFetch
when it is not a multiple of 4, else OutOfBounds when its word is not below MEM_SIZE. The same for a taken branch,
which has no link. When the fault comes is the spec's decision D8, and that a fetch fault leaves registers, memory and pc
alone is D12 (R236; notes/assumptions/16.md). -/
def Obligations.BadTargetsFaultAtTheNextFetch : Prop :=
  ∀ (s t : State) (i : Instr), s.runState = .running → t.stopNow = false →
    i.mnemonic ∈ [.jal, .jalr, .beq, .bne, .blt, .bge, .bltu, .bgeu] → exec i s = .next t →
    t.runState = .running ∧
    (∀ rd, rd ≠ 0 → i.rd = some rd → t.readReg rd = s.pc + 4) ∧
    (t.pc.toNat % 4 ≠ 0 → ∃ u, step t = .next u ∧
      OnlyRunState t u (.faulted ⟨.misalignedFetch, t.pc, t.pc, none⟩)) ∧
    (t.pc.toNat % 4 = 0 → t.memSize ≤ t.pc.toNat + 3 → ∃ u, step t = .next u ∧
      OnlyRunState t u (.faulted ⟨.outOfBounds, t.pc, t.pc, none⟩))

/-- FENCE (with any rd, rs1 and immediate), ECALL and EBREAK set the pc to pc + 4 and change nothing else (R201, R202,
R203); the spec takes the source's default here (decision D4). -/
def Obligations.FenceEcallEbreakOnlyAdvance : Prop :=
  RowSelects 0x0000707F#32 0x0000000F#32 (fun w => .fence (Bits.rd w) (Bits.rs1 w) (Bits.immI w)) ∧
  RowSelects 0xFFFFFFFF#32 0x00000073#32 (fun _ => .ecall) ∧
  RowSelects 0xFFFFFFFF#32 0x00100073#32 (fun _ => .ebreak) ∧
  (∀ (rd rs1 : Reg) (imm : Word) (s : State), ∃ t, exec (.fence rd rs1 imm) s = .next t ∧ SetsPc s t (s.pc + 4)) ∧
  (∀ s : State, ∃ t, exec .ecall s = .next t ∧ SetsPc s t (s.pc + 4)) ∧
  (∀ s : State, ∃ t, exec .ebreak s = .next t ∧ SetsPc s t (s.pc + 4))

/-! ### All instructions -/

/-- Every instruction answers a next state in every state, and none is refused. A load or store out of bounds enters
Faulted, where no further step is defined (R169, R230); that this entry is itself a next state is the model's reading of
R236 (notes/assumptions/8.md, DEDUCED). -/
def Obligations.EveryInstructionRuns : Prop :=
  ∀ (i : Instr) (s : State), ∃ t, exec i s = .next t

/-- No instruction has an effect on any state but its rd, the bytes it stores, and the pc (the last sentence of R32); one
that faults changes only the run state, of which the spec states a part and decides the rest (D12). -/
def Obligations.EffectsAreConfined : Prop :=
  ∀ (i : Instr) (s t : State), exec i s = .next t →
    SameInputs s t ∧
    (∀ r, i.rd ≠ some r → t.readReg r = s.readReg r) ∧
    (∀ a, (∀ ea n, isStore i = true → dataAccess s i = some (ea, n) → a < ea.toNat ∨ ea.toNat + n ≤ a) →
      t.mem.read a = s.mem.read a) ∧
    (t.runState = s.runState ∨ ∃ r, OnlyRunState s t (.faulted r))

/-- The pc is written once per executed instruction: to a computed target by a branch whose relation holds
(`branchTaken`, R181 to R186) or a jump (R191, R192), to pc + 4 otherwise; a step that faults or halts does not change
it (R27). That JALR's target is of the old x[rs1], also when rd is rs1, is the spec's decision D17
(notes/assumptions/21.md), and that a fault leaves the pc is D12 (R236; notes/assumptions/16.md). -/
def Obligations.PcTakesOneNextValue : Prop :=
  (∀ (i : Instr) (s t : State), s.runState = .running → exec i s = .next t → t.runState = .running →
    (i.mnemonic ∉ [.jal, .jalr, .beq, .bne, .blt, .bge, .bltu, .bgeu] → t.pc = s.pc + 4) ∧
    (i.mnemonic.format = .B → ∃ imm taken, i.imm = some imm ∧ branchTaken s i = some taken ∧
      t.pc = if taken then s.pc + imm else s.pc + 4) ∧
    (i.mnemonic = .jal → ∃ imm, i.imm = some imm ∧ t.pc = s.pc + imm) ∧
    (i.mnemonic = .jalr → ∃ imm rs1, i.imm = some imm ∧ i.rs1 = some rs1 ∧
      t.pc = (s.readReg rs1 + imm) &&& 0xFFFFFFFE#32)) ∧
  (∀ s t : State, step s = .next t → t.runState ≠ .running → t.pc = s.pc)

/-! ### The step -/

/-- When the fetched word decodes to an instruction and no halt pattern holds of it, the step is exec of that
instruction, in the state whose STOP bit has been sampled; nothing else is added. -/
def Obligations.StepRunsTheDecodedInstruction : Prop :=
  ∀ (s : State) (w : Word) (i : Instr), Fetches s w → s.haltMatches w = false → decode w = .ok i →
    step s = exec i s.sampleStop

/-- A word placed where the next step fetches is the next instruction run, and the placing changes nothing but its four
bytes: no other byte, no register, not the pc, not the run state, no parameter and not STOP (the operation is the
model's, notes/assumptions/18.md). -/
def Obligations.PlacedWordRunsNext : Prop :=
  ∀ (s : State) (nbits w : Nat) (i : Instr), s.mem.wf → s.runState = .running → s.stopNow = false → s.pc.toNat % 4 = 0 →
    s.pc.toNat + 3 < s.memSize → decodeTableWord nbits w = some i →
    s.haltMatches (BitVec.ofNat 32 (w % 2 ^ nbits)) = false →
    step (s.withFetchWord nbits w) = exec i (s.withFetchWord nbits w).sampleStop ∧
    (∀ b, b < s.pc.toNat ∨ s.pc.toNat + 4 ≤ b → (s.withFetchWord nbits w).mem.read b = s.mem.read b) ∧
    SameRegs s (s.withFetchWord nbits w) ∧ (s.withFetchWord nbits w).pc = s.pc ∧
    (s.withFetchWord nbits w).runState = s.runState ∧ SameInputs s (s.withFetchWord nbits w)

/-- STOP, sampled before every check, halts with nothing executed: also with a pc that cannot be fetched. The place of
the sample is the spec's decision D6. -/
def Obligations.StopHaltsBeforeTheFetch : Prop :=
  ∀ (s : State) (rest : List Bool), s.runState = .running → s.stop = true :: rest →
    ∃ t, step s = .next t ∧ OnlyRunState s t .halted ∧ t.stop = rest

/-- A step budget of n: when STOP is first set at step n + 1 and n steps leave the machine Running, step n + 1 halts it,
and it changes nothing else (R213, decision D6). -/
def Obligations.StopGivesAStepBudget : Prop :=
  ∀ (n : Nat) (s t : State), s.stop = List.replicate n false ++ [true] → Reaches n s t → t.runState = .running →
    ∃ u, Reaches (n + 1) s u ∧ OnlyRunState t u .halted ∧ u.stop = []

/-- HALT, tested after a successful fetch and before decode, halts with the instruction not executed, also on an
illegal word; with no pattern it never holds (the default). A fetch fault comes first. The place of the test is the
spec's decision D5. -/
def Obligations.HaltPatternStopsBeforeDecode : Prop :=
  (∀ (s : State) (w : Word), Fetches s w →
    (∃ p ∈ s.halt, s.pc &&& p.pcMask = p.pcValue ∧ w &&& p.wordMask = p.wordValue) →
    ∃ t, step s = .next t ∧ OnlyRunState s t .halted) ∧
  (∀ (s t : State), s.halt = [] → s.stopNow = false → step s = .next t → t.runState ≠ .halted) ∧
  (∀ s : State, s.runState = .running → s.stopNow = false →
    (s.pc.toNat % 4 ≠ 0 ∨ s.memSize ≤ s.pc.toNat + 3) → ∃ t r, step s = .next t ∧ t.runState = .faulted r)

/-- MisalignedFetch (R232): a pc that is not a multiple of 4 faults before memory is read; from a pc that is a
multiple of 4, only a branch, JAL or JALR makes one that is not, and it is 2 modulo 4; no instruction raises the fault
itself. That the fault is the fetch's and not the jump's is the spec's decision D8 (notes/assumptions/14.md), and that
it leaves registers, memory and pc alone is D12 (R236; notes/assumptions/16.md). -/
def Obligations.MisalignedFetchComesFromTheFetch : Prop :=
  (∀ s : State, s.runState = .running → s.stopNow = false → s.pc.toNat % 4 ≠ 0 →
    ∃ t, step s = .next t ∧ OnlyRunState s t (.faulted ⟨.misalignedFetch, s.pc, s.pc, none⟩)) ∧
  (∀ s t : State, s.pc.toNat % 4 = 0 → step s = .next t → t.pc.toNat % 4 ≠ 0 →
    t.pc.toNat % 4 = 2 ∧ t.runState = .running ∧ ∃ w i, Fetches s w ∧ decode w = .ok i ∧
      i.mnemonic ∈ [.jal, .jalr, .beq, .bne, .blt, .bge, .bltu, .bgeu] ∧ t.pc ≠ s.pc + 4) ∧
  (∀ (i : Instr) (s t : State) (r : FaultRecord), s.runState = .running → exec i s = .next t →
    t.runState = .faulted r → r.kind ≠ .misalignedFetch)

/-- OutOfBounds of the fetch: an aligned pc whose word is not below MEM_SIZE faults, with the pc for both addresses and
no word, and nothing else changes. The unbounded sum is the spec's decision D10, the contents of the record D13, and that
a fetch fault leaves registers, memory and pc alone D12 (R236; notes/assumptions/16.md). -/
def Obligations.OutOfBoundsFetchFaults : Prop :=
  ∀ s : State, s.runState = .running → s.stopNow = false → s.pc.toNat % 4 = 0 → s.memSize ≤ s.pc.toNat + 3 →
    ∃ t, step s = .next t ∧ OnlyRunState s t (.faulted ⟨.outOfBounds, s.pc, s.pc, none⟩)

/-- DecodeError (R231): a fetched word of no row, when no halt pattern holds of it, faults with the word in the record;
registers, memory and pc are as before the fetch. -/
def Obligations.IllegalWordFaults : Prop :=
  ∀ (s : State) (w : Word), Fetches s w → s.haltMatches w = false → (∀ m : Mnemonic, w &&& m.mask ≠ m.matchWord) →
    ∃ t, step s = .next t ∧ OnlyRunState s t (.faulted ⟨.decodeError, s.pc, s.pc, some w⟩)

/-- OutOfBounds of a data access: the step of a load or store that reaches beyond MEM_SIZE faults with the lowest
address of the access and the fetched word (decisions D12, D13). -/
def Obligations.OutOfBoundsAccessFaults : Prop :=
  ∀ (s : State) (w : Word) (i : Instr) (ea : Word) (n : Nat), Fetches s w → s.haltMatches w = false →
    decode w = .ok i → dataAccess s i = some (ea, n) → s.memSize ≤ ea.toNat + n - 1 →
    ∃ t, step s = .next t ∧ OnlyRunState s t (.faulted ⟨.outOfBounds, s.pc, ea, some w⟩)

/-- The fault table of R230, whole and both ways: a step from Running enters Faulted with record r exactly in its four
reachable rows, each with the fields the table gives (and so in the order of R237, the spec's decision D7, with STOP
first and HALT before DecodeError). -/
def Obligations.FaultsAreExactlyTheTable : Prop :=
  ∀ (s t : State) (r : FaultRecord), s.runState = .running → step s = .next t →
    (t.runState = .faulted r ↔ s.stopNow = false ∧
      ((s.pc.toNat % 4 ≠ 0 ∧ r = ⟨.misalignedFetch, s.pc, s.pc, none⟩) ∨
       (s.pc.toNat % 4 = 0 ∧ s.memSize ≤ s.pc.toNat + 3 ∧ r = ⟨.outOfBounds, s.pc, s.pc, none⟩) ∨
       (∃ w, Fetches s w ∧ s.haltMatches w = false ∧
         (((∀ m : Mnemonic, w &&& m.mask ≠ m.matchWord) ∧ r = ⟨.decodeError, s.pc, s.pc, some w⟩) ∨
          (∃ i ea n, decode w = .ok i ∧ dataAccess s i = some (ea, n) ∧ s.memSize ≤ ea.toNat + n - 1 ∧
            r = ⟨.outOfBounds, s.pc, ea, some w⟩)))))

/-- UnsupportedInstruction is raised by nothing (R234, the spec's decision D2): no step enters Faulted with it. -/
def Obligations.UnsupportedInstructionIsNeverRaised : Prop :=
  ∀ (s t : State) (r : FaultRecord), step s = .next t → t.runState = .faulted r → r.kind ≠ .unsupportedInstruction

/-- A step is atomic (R217): it commits the effects of its one instruction and stays Running, or changes only the run
state. -/
def Obligations.StepIsAtomic : Prop :=
  ∀ s t : State, step s = .next t →
    (t.runState = .running ∧ ∃ w i, Fetches s w ∧ decode w = .ok i ∧ exec i s.sampleStop = .next t) ∨
    ((t.runState = .halted ∨ ∃ r, t.runState = .faulted r) ∧ OnlyRunState s t t.runState)

/-- In Halted and in Faulted no step is defined, and no run goes on (R218). That `step` answers there with the outcomes
`noStepInHalted` and `noStepInFaulted` is the model's reading (notes/assumptions/8.md, DEDUCED). -/
def Obligations.NoStepAfterTheEnd : Prop :=
  ∀ s : State, s.runState ≠ .running →
    (∀ t, step s ≠ .next t) ∧ (∀ n t, ¬ Reaches (n + 1) s t) ∧
    (s.runState = .halted → step s = .fault .noStepInHalted) ∧
    (∀ r, s.runState = .faulted r → step s = .fault .noStepInFaulted)

/-- The parameters do not change during a run (R20), and each step takes one bit of STOP. -/
def Obligations.ParametersStayAndStopIsTaken : Prop :=
  (∀ s t : State, step s = .next t → t.memSize = s.memSize ∧ t.halt = s.halt ∧ t.stop = s.stop.tail) ∧
  (∀ (n : Nat) (s t : State), Reaches n s t → t.memSize = s.memSize ∧ t.halt = s.halt ∧ t.stop = s.stop.drop n)

/-- A store is seen by the next fetch (R64, which the spec derives): a step that runs SW over an aligned address, then
a fetch from there, gives the stored word. -/
def Obligations.StoreIsSeenByTheNextFetch : Prop :=
  ∀ (s t : State) (w : Word) (rs1 rs2 : Reg) (imm : Word), s.mem.wf → Fetches s w → s.haltMatches w = false →
    decode w = .ok (.sw rs1 rs2 imm) → (s.effectiveAddress rs1 imm).toNat % 4 = 0 →
    (s.effectiveAddress rs1 imm).toNat + 3 < s.memSize → step s = .next t →
    (t.jumpTo (s.effectiveAddress rs1 imm)).fetch = .ok (s.readReg rs2)

/-- The fault report (R43): on entering Faulted the host reads the fault record and the register file; in no other run
state is there one. That its registers are those before the step is R31 and R236, for every fault but DecodeError by
the spec's decision D12 (notes/assumptions/16.md). -/
def Obligations.FaultReportGivesRecordAndRegisters : Prop :=
  (∀ (s t : State) (r : FaultRecord), step s = .next t → t.runState = .faulted r →
    ∃ rep, t.faultReport = some rep ∧ rep.record = r ∧
      ∀ i : Reg, rep.registers[i.val] = s.readReg i) ∧
  (∀ s : State, s.runState = .running ∨ s.runState = .halted → s.faultReport = none)

/-- The pseudo-instructions `li` and `la` build their value (R107, general knowledge to the source): after the expansion
of `li rd, imm` x[rd] is imm, after that of `la` it is the address at the given distance from the first instruction,
and no other register changes. -/
def Obligations.LiAndLaBuildTheirValue : Prop :=
  ∀ (rd : Reg) (imm : Word) (s : State), rd ≠ 0 →
    (∃ t, execAll (Assembler.expand (.li rd imm)) s = .next t ∧ t.readReg rd = imm ∧
      (∀ r, r ≠ rd → t.readReg r = s.readReg r) ∧ SameMemory s t ∧
      (∀ i ∈ Assembler.expand (.li rd imm), i.wf = true)) ∧
    (∃ t, execAll (Assembler.expand (.la rd imm)) s = .next t ∧ t.readReg rd = s.pc + imm ∧
      (∀ r, r ≠ rd → t.readReg r = s.readReg r) ∧ SameMemory s t ∧
      (∀ i ∈ Assembler.expand (.la rd imm), i.wf = true))

/-- Inspection (R42): the host reads x0 to x31, every byte below MEM_SIZE and the fault record, and the current
instruction is `MemRead(pc, 4)`, also at a pc that is not a multiple of 4, and absent only where it reaches MEM_SIZE.
There is no other state (R20): two states with the invariant of memory, the same parameters and the same STOP, that read
alike are equal. That they are equal as data is due to the canonical form of memory, the model's choice
(notes/assumptions/5.md). -/
def Obligations.InspectionReadsTheWholeState : Prop :=
  (∀ s : State,
    (∀ i : Reg, s.registers[i.val] = s.readReg i) ∧
    (∀ a, s.byteAt a = if a < s.memSize then some (s.mem.read a) else none) ∧
    (∀ r, s.faultRecord = some r ↔ s.runState = .faulted r) ∧
    (∀ w, s.pc.toNat + 3 < s.memSize → WordAt s s.pc.toNat w → s.current = some (w, s.pc)) ∧
    (s.memSize ≤ s.pc.toNat + 3 → s.current = none)) ∧
  (∀ s t : State, MemoryInv s → MemoryInv t → SameInputs s t → t.registers = s.registers → t.pc = s.pc →
    (∀ a, t.byteAt a = s.byteAt a) → t.runState = s.runState → t = s)
end

