-- ==== Sys2Proof/Laws/Bits.lean ====
section
/-! SUPPORT. Laws/Bits.lean: byte order and extension (20_memory.md R51, 00_scope.md R10). -/

namespace Sys2Proof.Bits

@[simp] theorem leBytes_length {w : Nat} (n : Nat) (v : BitVec w) : (leBytes n v).length = n := by
  simp [leBytes]

/-- Byte k of the bytes of v is `v[8k+7:8k]`. -/
theorem leBytes_getElem {w : Nat} (n k : Nat) (v : BitVec w) (h : k < (leBytes n v).length) :
    (leBytes n v)[k] = v.extractLsb' (8 * k) 8 := by
  simp [leBytes]

/-- Bit j of the value of a list of bytes is bit j mod 8 of byte j / 8. -/
theorem ofLE_getLsbD (w : Nat) : ∀ (bs : List Byte) (j : Nat), j < w →
    (ofLE w bs).getLsbD j = (bs.getD (j / 8) 0).getLsbD (j % 8)
  | [], j, _ => by simp [ofLE]
  | b :: bs, j, h => by
    rw [ofLE, BitVec.getLsbD_or, BitVec.getLsbD_shiftLeft, BitVec.getLsbD_setWidth]
    by_cases h8 : j < 8
    · have h0 : j / 8 = 0 := by omega
      have hm : j % 8 = j := by omega
      simp [h, h8, h0, hm]
    · have hd : j / 8 = (j - 8) / 8 + 1 := by omega
      have hm : j % 8 = (j - 8) % 8 := by omega
      have hb : b.getLsbD j = false := BitVec.getLsbD_of_ge _ _ (by omega)
      simp [h, h8, hb, hd, hm, ofLE_getLsbD w bs (j - 8) (by omega)]

/-- Byte k of the value of a list of bytes is the list's byte k (20_memory.md R56). -/
theorem ofLE_byte (w : Nat) (bs : List Byte) (k : Nat) (h : 8 * k + 8 ≤ w) :
    (ofLE w bs).extractLsb' (8 * k) 8 = bs.getD k 0 := by
  apply BitVec.eq_of_getLsbD_eq
  intro j hj
  have hd : (8 * k + j) / 8 = k := by omega
  have hm : (8 * k + j) % 8 = j := by omega
  simp [hj, ofLE_getLsbD w bs (8 * k + j) (by omega), hd, hm]

/-- A value is the value of a list of bytes as soon as its bytes are the list's. -/
theorem eq_ofLE (w n : Nat) (hw : w = 8 * n) (v : BitVec w) (bs : List Byte)
    (h : ∀ k < n, v.extractLsb' (8 * k) 8 = bs.getD k 0) : v = ofLE w bs := by
  apply BitVec.eq_of_getLsbD_eq
  intro j hj
  have := congrArg (fun b : Byte => b.getLsbD (j % 8)) (h (j / 8) (by omega))
  have hjj : 8 * (j / 8) + j % 8 = j := by omega
  have hm : j % 8 < 8 := by omega
  simp only [BitVec.getLsbD_extractLsb', hm, decide_true, Bool.true_and, hjj] at this
  rw [this, ofLE_getLsbD w bs j hj]

/-- The bytes of a value give the value back. -/
theorem ofLE_leBytes (w n : Nat) (hw : w = 8 * n) (v : BitVec w) : ofLE w (leBytes n v) = v := by
  refine (eq_ofLE w n hw v _ fun k hk => ?_).symm
  rw [List.getD_eq_getElem _ _ (by simpa using hk), leBytes_getElem]

/-- Sign extension keeps the signed value (00_scope.md R10). -/
theorem sext_toInt {n : Nat} (h : n ≤ 32) (v : BitVec n) : (sext v).toInt = v.toInt :=
  BitVec.toInt_signExtend_of_le h

/-- Zero extension keeps the unsigned value (R10). -/
theorem zext_toNat {n : Nat} (h : n ≤ 32) (v : BitVec n) : (zext v).toNat = v.toNat := by
  have := v.isLt
  have : 2 ^ n ≤ 2 ^ 32 := Nat.pow_le_pow_right (by omega) h
  simp only [zext, BitVec.toNat_setWidth]
  omega

end Sys2Proof.Bits
end

