-- ==== Sys2Proof/Laws/Decode.lean ====
section
/-! SUPPORT. Laws/Decode.lean: the mask and match columns of 30_encoding.md R95 as fields of the word, and everything
`decode` can answer, said once. -/

namespace Sys2Proof

/-! ### Fields under a mask -/

theorem Bits.and_opcodeMask (w : Word) : w &&& 0x7F#32 = (Bits.opcode w).setWidth 32 := by
  apply BitVec.eq_of_getLsbD_eq; intro i hi
  unfold Bits.opcode
  interval_cases i <;> simp

theorem Bits.and_funct3Mask (w : Word) :
    w &&& 0x707F#32 = (Bits.funct3 w).setWidth 32 <<< 12 ||| (Bits.opcode w).setWidth 32 := by
  apply BitVec.eq_of_getLsbD_eq; intro i hi
  unfold Bits.opcode Bits.funct3
  interval_cases i <;> simp

theorem Bits.and_funct7Mask (w : Word) : w &&& 0xFE00707F#32 =
    (Bits.funct7 w).setWidth 32 <<< 25 ||| (Bits.funct3 w).setWidth 32 <<< 12 ||| (Bits.opcode w).setWidth 32 := by
  apply BitVec.eq_of_getLsbD_eq; intro i hi
  unfold Bits.opcode Bits.funct3 Bits.funct7
  interval_cases i <;> simp

theorem Bits.opcode_and (w m : Word) (h : Bits.opcode m = 0x7F#7) : Bits.opcode (w &&& m) = Bits.opcode w := by
  unfold Bits.opcode at *
  rw [BitVec.extractLsb'_and, h]
  exact BitVec.and_allOnes

theorem Bits.funct3_and (w m : Word) (h : Bits.funct3 m = 7#3) : Bits.funct3 (w &&& m) = Bits.funct3 w := by
  unfold Bits.funct3 at *
  rw [BitVec.extractLsb'_and, h]
  exact BitVec.and_allOnes

theorem Bits.funct7_and (w m : Word) (h : Bits.funct7 m = 0x7F#7) : Bits.funct7 (w &&& m) = Bits.funct7 w := by
  unfold Bits.funct7 at *
  rw [BitVec.extractLsb'_and, h]
  exact BitVec.and_allOnes

theorem Bits.opcode_selects (w c : Word) (o : BitVec 7) (hc : c = o.setWidth 32) (ho : Bits.opcode c = o) :
    w &&& 0x7F#32 = c ↔ Bits.opcode w = o := by
  constructor
  · intro h; rw [← Bits.opcode_and w 0x7F#32 (by decide), h, ho]
  · intro h; rw [Bits.and_opcodeMask, h, hc]

theorem Bits.funct3_selects (w c : Word) (o : BitVec 7) (f : BitVec 3)
    (hc : c = f.setWidth 32 <<< 12 ||| o.setWidth 32) (ho : Bits.opcode c = o) (hf : Bits.funct3 c = f) :
    w &&& 0x707F#32 = c ↔ Bits.opcode w = o ∧ Bits.funct3 w = f := by
  constructor
  · intro h
    exact ⟨by rw [← Bits.opcode_and w 0x707F#32 (by decide), h, ho],
      by rw [← Bits.funct3_and w 0x707F#32 (by decide), h, hf]⟩
  · rintro ⟨h1, h2⟩; rw [Bits.and_funct3Mask, h1, h2, hc]

theorem Bits.funct7_selects (w c : Word) (o : BitVec 7) (f : BitVec 3) (g : BitVec 7)
    (hc : c = g.setWidth 32 <<< 25 ||| f.setWidth 32 <<< 12 ||| o.setWidth 32) (ho : Bits.opcode c = o)
    (hf : Bits.funct3 c = f) (hg : Bits.funct7 c = g) :
    w &&& 0xFE00707F#32 = c ↔ Bits.opcode w = o ∧ Bits.funct3 w = f ∧ Bits.funct7 w = g := by
  constructor
  · intro h
    exact ⟨by rw [← Bits.opcode_and w 0xFE00707F#32 (by decide), h, ho],
      by rw [← Bits.funct3_and w 0xFE00707F#32 (by decide), h, hf],
      by rw [← Bits.funct7_and w 0xFE00707F#32 (by decide), h, hg]⟩
  · rintro ⟨h1, h2, h3⟩; rw [Bits.and_funct7Mask, h1, h2, h3, hc]

theorem Bits.word_selects (w c : Word) : w &&& 0xFFFFFFFF#32 = c ↔ w = c := by
  rw [show w &&& 0xFFFFFFFF#32 = w from BitVec.and_allOnes]

/-! ### The rows -/

/-- The instruction a row makes of a word's fields. -/
def Mnemonic.instrOf (w : Word) : Mnemonic → Instr
  | .lui => .lui (Bits.rd w) (Bits.immU w)
  | .auipc => .auipc (Bits.rd w) (Bits.immU w)
  | .jal => .jal (Bits.rd w) (Bits.immJ w)
  | .jalr => .jalr (Bits.rd w) (Bits.rs1 w) (Bits.immI w)
  | .beq => .beq (Bits.rs1 w) (Bits.rs2 w) (Bits.immB w)
  | .bne => .bne (Bits.rs1 w) (Bits.rs2 w) (Bits.immB w)
  | .blt => .blt (Bits.rs1 w) (Bits.rs2 w) (Bits.immB w)
  | .bge => .bge (Bits.rs1 w) (Bits.rs2 w) (Bits.immB w)
  | .bltu => .bltu (Bits.rs1 w) (Bits.rs2 w) (Bits.immB w)
  | .bgeu => .bgeu (Bits.rs1 w) (Bits.rs2 w) (Bits.immB w)
  | .lb => .lb (Bits.rd w) (Bits.rs1 w) (Bits.immI w)
  | .lh => .lh (Bits.rd w) (Bits.rs1 w) (Bits.immI w)
  | .lw => .lw (Bits.rd w) (Bits.rs1 w) (Bits.immI w)
  | .lbu => .lbu (Bits.rd w) (Bits.rs1 w) (Bits.immI w)
  | .lhu => .lhu (Bits.rd w) (Bits.rs1 w) (Bits.immI w)
  | .sb => .sb (Bits.rs1 w) (Bits.rs2 w) (Bits.immS w)
  | .sh => .sh (Bits.rs1 w) (Bits.rs2 w) (Bits.immS w)
  | .sw => .sw (Bits.rs1 w) (Bits.rs2 w) (Bits.immS w)
  | .addi => .addi (Bits.rd w) (Bits.rs1 w) (Bits.immI w)
  | .slti => .slti (Bits.rd w) (Bits.rs1 w) (Bits.immI w)
  | .sltiu => .sltiu (Bits.rd w) (Bits.rs1 w) (Bits.immI w)
  | .xori => .xori (Bits.rd w) (Bits.rs1 w) (Bits.immI w)
  | .ori => .ori (Bits.rd w) (Bits.rs1 w) (Bits.immI w)
  | .andi => .andi (Bits.rd w) (Bits.rs1 w) (Bits.immI w)
  | .slli => .slli (Bits.rd w) (Bits.rs1 w) (Bits.shamt w)
  | .srli => .srli (Bits.rd w) (Bits.rs1 w) (Bits.shamt w)
  | .srai => .srai (Bits.rd w) (Bits.rs1 w) (Bits.shamt w)
  | .add => .add (Bits.rd w) (Bits.rs1 w) (Bits.rs2 w)
  | .sub => .sub (Bits.rd w) (Bits.rs1 w) (Bits.rs2 w)
  | .sll => .sll (Bits.rd w) (Bits.rs1 w) (Bits.rs2 w)
  | .slt => .slt (Bits.rd w) (Bits.rs1 w) (Bits.rs2 w)
  | .sltu => .sltu (Bits.rd w) (Bits.rs1 w) (Bits.rs2 w)
  | .xor => .xor (Bits.rd w) (Bits.rs1 w) (Bits.rs2 w)
  | .srl => .srl (Bits.rd w) (Bits.rs1 w) (Bits.rs2 w)
  | .sra => .sra (Bits.rd w) (Bits.rs1 w) (Bits.rs2 w)
  | .or => .or (Bits.rd w) (Bits.rs1 w) (Bits.rs2 w)
  | .and => .and (Bits.rd w) (Bits.rs1 w) (Bits.rs2 w)
  | .fence => .fence (Bits.rd w) (Bits.rs1 w) (Bits.immI w)
  | .ecall => .ecall
  | .ebreak=> .ebreak

/-- A row's selectors as fields of the word. -/
def Mnemonic.fieldsMatch (w : Word) : Mnemonic → Prop
  | .lui => Bits.opcode w = 0b0110111#7
  | .auipc => Bits.opcode w = 0b0010111#7
  | .jal => Bits.opcode w = 0b1101111#7
  | .jalr => Bits.opcode w = 0b1100111#7 ∧ Bits.funct3 w = 0b000#3
  | .beq => Bits.opcode w = 0b1100011#7 ∧ Bits.funct3 w = 0b000#3
  | .bne => Bits.opcode w = 0b1100011#7 ∧ Bits.funct3 w = 0b001#3
  | .blt => Bits.opcode w = 0b1100011#7 ∧ Bits.funct3 w = 0b100#3
  | .bge => Bits.opcode w = 0b1100011#7 ∧ Bits.funct3 w = 0b101#3
  | .bltu => Bits.opcode w = 0b1100011#7 ∧ Bits.funct3 w = 0b110#3
  | .bgeu => Bits.opcode w = 0b1100011#7 ∧ Bits.funct3 w = 0b111#3
  | .lb => Bits.opcode w = 0b0000011#7 ∧ Bits.funct3 w = 0b000#3
  | .lh => Bits.opcode w = 0b0000011#7 ∧ Bits.funct3 w = 0b001#3
  | .lw => Bits.opcode w = 0b0000011#7 ∧ Bits.funct3 w = 0b010#3
  | .lbu => Bits.opcode w = 0b0000011#7 ∧ Bits.funct3 w = 0b100#3
  | .lhu => Bits.opcode w = 0b0000011#7 ∧ Bits.funct3 w = 0b101#3
  | .sb => Bits.opcode w = 0b0100011#7 ∧ Bits.funct3 w = 0b000#3
  | .sh => Bits.opcode w = 0b0100011#7 ∧ Bits.funct3 w = 0b001#3
  | .sw => Bits.opcode w = 0b0100011#7 ∧ Bits.funct3 w = 0b010#3
  | .addi => Bits.opcode w = 0b0010011#7 ∧ Bits.funct3 w = 0b000#3
  | .slti => Bits.opcode w = 0b0010011#7 ∧ Bits.funct3 w = 0b010#3
  | .sltiu => Bits.opcode w = 0b0010011#7 ∧ Bits.funct3 w = 0b011#3
  | .xori => Bits.opcode w = 0b0010011#7 ∧ Bits.funct3 w = 0b100#3
  | .ori => Bits.opcode w = 0b0010011#7 ∧ Bits.funct3 w = 0b110#3
  | .andi => Bits.opcode w = 0b0010011#7 ∧ Bits.funct3 w = 0b111#3
  | .slli => Bits.opcode w = 0b0010011#7 ∧ Bits.funct3 w = 0b001#3 ∧ Bits.funct7 w = 0b0000000#7
  | .srli => Bits.opcode w = 0b0010011#7 ∧ Bits.funct3 w = 0b101#3 ∧ Bits.funct7 w = 0b0000000#7
  | .srai => Bits.opcode w = 0b0010011#7 ∧ Bits.funct3 w = 0b101#3 ∧ Bits.funct7 w = 0b0100000#7
  | .add => Bits.opcode w = 0b0110011#7 ∧ Bits.funct3 w = 0b000#3 ∧ Bits.funct7 w = 0b0000000#7
  | .sub => Bits.opcode w = 0b0110011#7 ∧ Bits.funct3 w = 0b000#3 ∧ Bits.funct7 w = 0b0100000#7
  | .sll => Bits.opcode w = 0b0110011#7 ∧ Bits.funct3 w = 0b001#3 ∧ Bits.funct7 w = 0b0000000#7
  | .slt => Bits.opcode w = 0b0110011#7 ∧ Bits.funct3 w = 0b010#3 ∧ Bits.funct7 w = 0b0000000#7
  | .sltu => Bits.opcode w = 0b0110011#7 ∧ Bits.funct3 w = 0b011#3 ∧ Bits.funct7 w = 0b0000000#7
  | .xor => Bits.opcode w = 0b0110011#7 ∧ Bits.funct3 w = 0b100#3 ∧ Bits.funct7 w = 0b0000000#7
  | .srl => Bits.opcode w = 0b0110011#7 ∧ Bits.funct3 w = 0b101#3 ∧ Bits.funct7 w = 0b0000000#7
  | .sra => Bits.opcode w = 0b0110011#7 ∧ Bits.funct3 w = 0b101#3 ∧ Bits.funct7 w = 0b0100000#7
  | .or => Bits.opcode w = 0b0110011#7 ∧ Bits.funct3 w = 0b110#3 ∧ Bits.funct7 w = 0b0000000#7
  | .and => Bits.opcode w = 0b0110011#7 ∧ Bits.funct3 w = 0b111#3 ∧ Bits.funct7 w = 0b0000000#7
  | .fence => Bits.opcode w = 0b0001111#7 ∧ Bits.funct3 w = 0b000#3
  | .ecall => w = 0x00000073#32
  | .ebreak => w = 0x00100073#32

/-- `(w AND mask) = match` says what the row's selector fields are. -/
theorem Mnemonic.match_iff_fields (w : Word) : ∀ m : Mnemonic, w &&& m.mask = m.matchWord ↔ m.fieldsMatch w
  | .lui => Bits.opcode_selects w _ _ (by decide) (by decide)
  | .auipc => Bits.opcode_selects w _ _ (by decide) (by decide)
  | .jal => Bits.opcode_selects w _ _ (by decide) (by decide)
  | .jalr => Bits.funct3_selects w _ _ _ (by decide) (by decide) (by decide)
  | .beq => Bits.funct3_selects w _ _ _ (by decide) (by decide) (by decide)
  | .bne => Bits.funct3_selects w _ _ _ (by decide) (by decide) (by decide)
  | .blt => Bits.funct3_selects w _ _ _ (by decide) (by decide) (by decide)
  | .bge => Bits.funct3_selects w _ _ _ (by decide) (by decide) (by decide)
  | .bltu => Bits.funct3_selects w _ _ _ (by decide) (by decide) (by decide)
  | .bgeu => Bits.funct3_selects w _ _ _ (by decide) (by decide) (by decide)
  | .lb => Bits.funct3_selects w _ _ _ (by decide) (by decide) (by decide)
  | .lh => Bits.funct3_selects w _ _ _ (by decide) (by decide) (by decide)
  | .lw => Bits.funct3_selects w _ _ _ (by decide) (by decide) (by decide)
  | .lbu => Bits.funct3_selects w _ _ _ (by decide) (by decide) (by decide)
  | .lhu => Bits.funct3_selects w _ _ _ (by decide) (by decide) (by decide)
  | .sb => Bits.funct3_selects w _ _ _ (by decide) (by decide) (by decide)
  | .sh => Bits.funct3_selects w _ _ _ (by decide) (by decide) (by decide)
  | .sw => Bits.funct3_selects w _ _ _ (by decide) (by decide) (by decide)
  | .addi => Bits.funct3_selects w _ _ _ (by decide) (by decide) (by decide)
  | .slti => Bits.funct3_selects w _ _ _ (by decide) (by decide) (by decide)
  | .sltiu => Bits.funct3_selects w _ _ _ (by decide) (by decide) (by decide)
  | .xori => Bits.funct3_selects w _ _ _ (by decide) (by decide) (by decide)
  | .ori => Bits.funct3_selects w _ _ _ (by decide) (by decide) (by decide)
  | .andi => Bits.funct3_selects w _ _ _ (by decide) (by decide) (by decide)
  | .slli => Bits.funct7_selects w _ _ _ _ (by decide) (by decide) (by decide) (by decide)
  | .srli => Bits.funct7_selects w _ _ _ _ (by decide) (by decide) (by decide) (by decide)
  | .srai => Bits.funct7_selects w _ _ _ _ (by decide) (by decide) (by decide) (by decide)
  | .add => Bits.funct7_selects w _ _ _ _ (by decide) (by decide) (by decide) (by decide)
  | .sub => Bits.funct7_selects w _ _ _ _ (by decide) (by decide) (by decide) (by decide)
  | .sll => Bits.funct7_selects w _ _ _ _ (by decide) (by decide) (by decide) (by decide)
  | .slt => Bits.funct7_selects w _ _ _ _ (by decide) (by decide) (by decide) (by decide)
  | .sltu => Bits.funct7_selects w _ _ _ _ (by decide) (by decide) (by decide) (by decide)
  | .xor => Bits.funct7_selects w _ _ _ _ (by decide) (by decide) (by decide) (by decide)
  | .srl => Bits.funct7_selects w _ _ _ _ (by decide) (by decide) (by decide) (by decide)
  | .sra => Bits.funct7_selects w _ _ _ _ (by decide) (by decide) (by decide) (by decide)
  | .or => Bits.funct7_selects w _ _ _ _ (by decide) (by decide) (by decide) (by decide)
  | .and => Bits.funct7_selects w _ _ _ _ (by decide) (by decide) (by decide) (by decide)
  | .fence => Bits.funct3_selects w _ _ _ (by decide) (by decide) (by decide)
  | .ecall => Bits.word_selects w _
  | .ebreak => Bits.word_selects w _

@[simp] theorem Mnemonic.instrOf_mnemonic (w : Word) (m : Mnemonic) : (m.instrOf w).mnemonic = m := by cases m <;> rfl

/-- A word of a row decodes to the row's instruction. -/
theorem decode_of_row (w : Word) (m : Mnemonic) (h : w &&& m.mask = m.matchWord) : decode w = .ok (m.instrOf w) := by
  rw [Mnemonic.match_iff_fields] at h
  cases m with
  | ecall => simp only [Mnemonic.fieldsMatch] at h; subst h; decide
  | ebreak => simp only [Mnemonic.fieldsMatch] at h; subst h; decide
  | _ =>
    simp only [Mnemonic.fieldsMatch] at h
    simp only [decode, decodeJalr, decodeBranch, decodeLoad, decodeStore, decodeOpImm, decodeOp, decodeMiscMem, h,
      Mnemonic.instrOf]

theorem row_of_ok {w : Word} {i : Instr} (m : Mnemonic)
    (h : (Except.ok (m.instrOf w) : Except DecodeReject Instr) = .ok i) (hm : m.fieldsMatch w) :
    ∃ m : Mnemonic, w &&& m.mask = m.matchWord ∧ i = m.instrOf w := by
  cases h; exact ⟨m, (m.match_iff_fields w).mpr hm, rfl⟩

/-- Inversion of decode: what it answers is the instruction of a row the word is in. -/
theorem row_of_decode (w : Word) (i : Instr) (h : decode w = .ok i) :
    ∃ m : Mnemonic, w &&& m.mask = m.matchWord ∧ i = m.instrOf w := by
  unfold decode at h
  split at h
  · exact row_of_ok .lui h ‹_›
  · exact row_of_ok .auipc h ‹_›
  · exact row_of_ok .jal h ‹_›
  · unfold decodeJalr at h
    repeat' split at h
    all_goals first
      | exact row_of_ok .jalr h ⟨by assumption, by assumption⟩
      | cases h
  · unfold decodeBranch at h
    repeat' split at h
    all_goals first
      | exact row_of_ok .beq h ⟨by assumption, by assumption⟩
      | exact row_of_ok .bne h ⟨by assumption, by assumption⟩
      | exact row_of_ok .blt h ⟨by assumption, by assumption⟩
      | exact row_of_ok .bge h ⟨by assumption, by assumption⟩
      | exact row_of_ok .bltu h ⟨by assumption, by assumption⟩
      | exact row_of_ok .bgeu h ⟨by assumption, by assumption⟩
      | cases h
  · unfold decodeLoad at h
    repeat' split at h
    all_goals first
      | exact row_of_ok .lb h ⟨by assumption, by assumption⟩
      | exact row_of_ok .lh h ⟨by assumption, by assumption⟩
      | exact row_of_ok .lw h ⟨by assumption, by assumption⟩
      | exact row_of_ok .lbu h ⟨by assumption, by assumption⟩
      | exact row_of_ok .lhu h ⟨by assumption, by assumption⟩
      | cases h
  · unfold decodeStore at h
    repeat' split at h
    all_goals first
      | exact row_of_ok .sb h ⟨by assumption, by assumption⟩
      | exact row_of_ok .sh h ⟨by assumption, by assumption⟩
      | exact row_of_ok .sw h ⟨by assumption, by assumption⟩
      | cases h
  · unfold decodeOpImm at h
    repeat' split at h
    all_goals first
      | exact row_of_ok .addi h ⟨by assumption, by assumption⟩
      | exact row_of_ok .slti h ⟨by assumption, by assumption⟩
      | exact row_of_ok .sltiu h ⟨by assumption, by assumption⟩
      | exact row_of_ok .xori h ⟨by assumption, by assumption⟩
      | exact row_of_ok .ori h ⟨by assumption, by assumption⟩
      | exact row_of_ok .andi h ⟨by assumption, by assumption⟩
      | exact row_of_ok .slli h ⟨by assumption, by assumption, by assumption⟩
      | exact row_of_ok .srli h ⟨by assumption, by assumption, by assumption⟩
      | exact row_of_ok .srai h ⟨by assumption, by assumption, by assumption⟩
      | cases h
  · unfold decodeOp at h
    repeat' split at h
    all_goals first
      | exact row_of_ok .add h ⟨by assumption, by assumption, by assumption⟩
      | exact row_of_ok .sub h ⟨by assumption, by assumption, by assumption⟩
      | exact row_of_ok .sll h ⟨by assumption, by assumption, by assumption⟩
      | exact row_of_ok .slt h ⟨by assumption, by assumption, by assumption⟩
      | exact row_of_ok .sltu h ⟨by assumption, by assumption, by assumption⟩
      | exact row_of_ok .xor h ⟨by assumption, by assumption, by assumption⟩
      | exact row_of_ok .srl h ⟨by assumption, by assumption, by assumption⟩
      | exact row_of_ok .sra h ⟨by assumption, by assumption, by assumption⟩
      | exact row_of_ok .or h ⟨by assumption, by assumption, by assumption⟩
      | exact row_of_ok .and h ⟨by assumption, by assumption, by assumption⟩
      | cases h
  · unfold decodeMiscMem at h
    repeat' split at h
    all_goals first
      | exact row_of_ok .fence h ⟨by assumption, by assumption⟩
      | cases h
  · unfold decodeSystem at h
    repeat' split at h
    all_goals first
      | exact row_of_ok .ecall h ‹_›
      | exact row_of_ok .ebreak h ‹_›
      | cases h
  · cases h

end Sys2Proof
end

