-- ==== Sys2Proof/Laws/Encode.lean ====
section
/-! SUPPORT. Laws/Encode.lean: the encoders of 30_encoding.md R82 to R87, field by field: what each field of an encoded
word is, and that a word is the encoding of its own fields. -/

namespace Sys2Proof

@[simp] theorem Bits.rd_bits (w : Word) : (Bits.rd w).bits = w.extractLsb' 7 5 := rfl
@[simp] theorem Bits.rs1_bits (w : Word) : (Bits.rs1 w).bits = w.extractLsb' 15 5 := rfl
@[simp] theorem Bits.rs2_bits (w : Word) : (Bits.rs2 w).bits = w.extractLsb' 20 5 := rfl

/-- Registers with the same five bits are the same. -/
theorem Reg.eq_of_bits {a b : Reg} (h : a.bits = b.bits) : a = b := by
  simpa using congrArg BitVec.toFin h

/-! ### The fields of an encoded word -/

theorem encodeR_opcode (g : BitVec 7) (r2 r1 : Reg) (f : BitVec 3) (d : Reg) (o : BitVec 7) :
    Bits.opcode (encodeR g r2 r1 f d o) = o := by
  simp only [Bits.opcode, encodeR]
  apply BitVec.eq_of_getLsbD_eq; intro i hi
  rw [BitVec.getLsbD_extractLsb']
  (repeat rw [BitVec.getLsbD_append])
  interval_cases i <;> simp

theorem encodeR_funct3 (g : BitVec 7) (r2 r1 : Reg) (f : BitVec 3) (d : Reg) (o : BitVec 7) :
    Bits.funct3 (encodeR g r2 r1 f d o) = f := by
  simp only [Bits.funct3, encodeR]
  apply BitVec.eq_of_getLsbD_eq; intro i hi
  rw [BitVec.getLsbD_extractLsb']
  (repeat rw [BitVec.getLsbD_append])
  interval_cases i <;> simp

theorem encodeR_funct7 (g : BitVec 7) (r2 r1 : Reg) (f : BitVec 3) (d : Reg) (o : BitVec 7) :
    Bits.funct7 (encodeR g r2 r1 f d o) = g := by
  simp only [Bits.funct7, encodeR]
  apply BitVec.eq_of_getLsbD_eq; intro i hi
  rw [BitVec.getLsbD_extractLsb']
  (repeat rw [BitVec.getLsbD_append])
  interval_cases i <;> simp

theorem encodeR_rd (g : BitVec 7) (r2 r1 : Reg) (f : BitVec 3) (d : Reg) (o : BitVec 7) :
    (Bits.rd (encodeR g r2 r1 f d o)).bits = d.bits := by
  simp only [Bits.rd_bits, encodeR]
  apply BitVec.eq_of_getLsbD_eq; intro i hi
  rw [BitVec.getLsbD_extractLsb']
  (repeat rw [BitVec.getLsbD_append])
  interval_cases i <;> simp

theorem encodeR_rs1 (g : BitVec 7) (r2 r1 : Reg) (f : BitVec 3) (d : Reg) (o : BitVec 7) :
    (Bits.rs1 (encodeR g r2 r1 f d o)).bits = r1.bits := by
  simp only [Bits.rs1_bits, encodeR]
  apply BitVec.eq_of_getLsbD_eq; intro i hi
  rw [BitVec.getLsbD_extractLsb']
  (repeat rw [BitVec.getLsbD_append])
  interval_cases i <;> simp

theorem encodeR_rs2 (g : BitVec 7) (r2 r1 : Reg) (f : BitVec 3) (d : Reg) (o : BitVec 7) :
    (Bits.rs2 (encodeR g r2 r1 f d o)).bits = r2.bits := by
  simp only [Bits.rs2_bits, encodeR]
  apply BitVec.eq_of_getLsbD_eq; intro i hi
  rw [BitVec.getLsbD_extractLsb']
  (repeat rw [BitVec.getLsbD_append])
  interval_cases i <;> simp

theorem encodeShift_opcode (g : BitVec 7) (sh : BitVec 5) (r1 : Reg) (f : BitVec 3) (d : Reg) (o : BitVec 7) :
    Bits.opcode (encodeShift g sh r1 f d o) = o := by
  simp only [Bits.opcode, encodeShift]
  apply BitVec.eq_of_getLsbD_eq; intro i hi
  rw [BitVec.getLsbD_extractLsb']
  (repeat rw [BitVec.getLsbD_append])
  interval_cases i <;> simp

theorem encodeShift_funct3 (g : BitVec 7) (sh : BitVec 5) (r1 : Reg) (f : BitVec 3) (d : Reg) (o : BitVec 7) :
    Bits.funct3 (encodeShift g sh r1 f d o) = f := by
  simp only [Bits.funct3, encodeShift]
  apply BitVec.eq_of_getLsbD_eq; intro i hi
  rw [BitVec.getLsbD_extractLsb']
  (repeat rw [BitVec.getLsbD_append])
  interval_cases i <;> simp

theorem encodeShift_funct7 (g : BitVec 7) (sh : BitVec 5) (r1 : Reg) (f : BitVec 3) (d : Reg) (o : BitVec 7) :
    Bits.funct7 (encodeShift g sh r1 f d o) = g := by
  simp only [Bits.funct7, encodeShift]
  apply BitVec.eq_of_getLsbD_eq; intro i hi
  rw [BitVec.getLsbD_extractLsb']
  (repeat rw [BitVec.getLsbD_append])
  interval_cases i <;> simp

theorem encodeShift_rd (g : BitVec 7) (sh : BitVec 5) (r1 : Reg) (f : BitVec 3) (d : Reg) (o : BitVec 7) :
    (Bits.rd (encodeShift g sh r1 f d o)).bits = d.bits := by
  simp only [Bits.rd_bits, encodeShift]
  apply BitVec.eq_of_getLsbD_eq; intro i hi
  rw [BitVec.getLsbD_extractLsb']
  (repeat rw [BitVec.getLsbD_append])
  interval_cases i <;> simp

theorem encodeShift_rs1 (g : BitVec 7) (sh : BitVec 5) (r1 : Reg) (f : BitVec 3) (d : Reg) (o : BitVec 7) :
    (Bits.rs1 (encodeShift g sh r1 f d o)).bits = r1.bits := by
  simp only [Bits.rs1_bits, encodeShift]
  apply BitVec.eq_of_getLsbD_eq; intro i hi
  rw [BitVec.getLsbD_extractLsb']
  (repeat rw [BitVec.getLsbD_append])
  interval_cases i <;> simp

theorem encodeShift_shamt (g : BitVec 7) (sh : BitVec 5) (r1 : Reg) (f : BitVec 3) (d : Reg) (o : BitVec 7) :
    Bits.shamt (encodeShift g sh r1 f d o) = sh := by
  simp only [Bits.shamt, encodeShift]
  apply BitVec.eq_of_getLsbD_eq; intro i hi
  rw [BitVec.getLsbD_extractLsb']
  (repeat rw [BitVec.getLsbD_append])
  interval_cases i <;> simp

theorem encodeI_opcode (a : Word) (r1 : Reg) (f : BitVec 3) (d : Reg) (o : BitVec 7) :
    Bits.opcode (encodeI a r1 f d o) = o := by
  simp only [Bits.opcode, encodeI]
  apply BitVec.eq_of_getLsbD_eq; intro i hi
  rw [BitVec.getLsbD_extractLsb']
  (repeat rw [BitVec.getLsbD_append])
  interval_cases i <;> simp

theorem encodeI_funct3 (a : Word) (r1 : Reg) (f : BitVec 3) (d : Reg) (o : BitVec 7) :
    Bits.funct3 (encodeI a r1 f d o) = f := by
  simp only [Bits.funct3, encodeI]
  apply BitVec.eq_of_getLsbD_eq; intro i hi
  rw [BitVec.getLsbD_extractLsb']
  (repeat rw [BitVec.getLsbD_append])
  interval_cases i <;> simp

theorem encodeI_rd (a : Word) (r1 : Reg) (f : BitVec 3) (d : Reg) (o : BitVec 7) :
    (Bits.rd (encodeI a r1 f d o)).bits = d.bits := by
  simp only [Bits.rd_bits, encodeI]
  apply BitVec.eq_of_getLsbD_eq; intro i hi
  rw [BitVec.getLsbD_extractLsb']
  (repeat rw [BitVec.getLsbD_append])
  interval_cases i <;> simp

theorem encodeI_rs1 (a : Word) (r1 : Reg) (f : BitVec 3) (d : Reg) (o : BitVec 7) :
    (Bits.rs1 (encodeI a r1 f d o)).bits = r1.bits := by
  simp only [Bits.rs1_bits, encodeI]
  apply BitVec.eq_of_getLsbD_eq; intro i hi
  rw [BitVec.getLsbD_extractLsb']
  (repeat rw [BitVec.getLsbD_append])
  interval_cases i <;> simp

theorem encodeI_immI (a : Word) (r1 : Reg) (f : BitVec 3) (d : Reg) (o : BitVec 7) :
    Bits.immI (encodeI a r1 f d o) = (a.extractLsb' 0 12).signExtend 32 := by
  unfold Bits.immI Bits.sext; congr 1; unfold encodeI
  apply BitVec.eq_of_getLsbD_eq; intro i hi
  simp only [BitVec.getLsbD_extractLsb']
  (repeat rw [BitVec.getLsbD_append])
  interval_cases i <;> simp

theorem encodeS_opcode (a : Word) (r2 r1 : Reg) (f : BitVec 3) (o : BitVec 7) :
    Bits.opcode (encodeS a r2 r1 f o) = o := by
  simp only [Bits.opcode, encodeS]
  apply BitVec.eq_of_getLsbD_eq; intro i hi
  rw [BitVec.getLsbD_extractLsb']
  (repeat rw [BitVec.getLsbD_append])
  interval_cases i <;> simp

theorem encodeS_funct3 (a : Word) (r2 r1 : Reg) (f : BitVec 3) (o : BitVec 7) :
    Bits.funct3 (encodeS a r2 r1 f o) = f := by
  simp only [Bits.funct3, encodeS]
  apply BitVec.eq_of_getLsbD_eq; intro i hi
  rw [BitVec.getLsbD_extractLsb']
  (repeat rw [BitVec.getLsbD_append])
  interval_cases i <;> simp

theorem encodeS_rs1 (a : Word) (r2 r1 : Reg) (f : BitVec 3) (o : BitVec 7) :
    (Bits.rs1 (encodeS a r2 r1 f o)).bits = r1.bits := by
  simp only [Bits.rs1_bits, encodeS]
  apply BitVec.eq_of_getLsbD_eq; intro i hi
  rw [BitVec.getLsbD_extractLsb']
  (repeat rw [BitVec.getLsbD_append])
  interval_cases i <;> simp

theorem encodeS_rs2 (a : Word) (r2 r1 : Reg) (f : BitVec 3) (o : BitVec 7) :
    (Bits.rs2 (encodeS a r2 r1 f o)).bits = r2.bits := by
  simp only [Bits.rs2_bits, encodeS]
  apply BitVec.eq_of_getLsbD_eq; intro i hi
  rw [BitVec.getLsbD_extractLsb']
  (repeat rw [BitVec.getLsbD_append])
  interval_cases i <;> simp

theorem encodeS_immS (a : Word) (r2 r1 : Reg) (f : BitVec 3) (o : BitVec 7) :
    Bits.immS (encodeS a r2 r1 f o) = (a.extractLsb' 0 12).signExtend 32 := by
  unfold Bits.immS Bits.sext; congr 1; unfold encodeS
  apply BitVec.eq_of_getLsbD_eq; intro i hi
  (repeat rw [BitVec.getLsbD_append])
  simp only [BitVec.getLsbD_extractLsb']
  (repeat rw [BitVec.getLsbD_append])
  interval_cases i <;> simp

theorem encodeB_opcode (a : Word) (r2 r1 : Reg) (f : BitVec 3) (o : BitVec 7) :
    Bits.opcode (encodeB a r2 r1 f o) = o := by
  simp only [Bits.opcode, encodeB]
  apply BitVec.eq_of_getLsbD_eq; intro i hi
  rw [BitVec.getLsbD_extractLsb']
  (repeat rw [BitVec.getLsbD_append])
  interval_cases i <;> simp

theorem encodeB_funct3 (a : Word) (r2 r1 : Reg) (f : BitVec 3) (o : BitVec 7) :
    Bits.funct3 (encodeB a r2 r1 f o) = f := by
  simp only [Bits.funct3, encodeB]
  apply BitVec.eq_of_getLsbD_eq; intro i hi
  rw [BitVec.getLsbD_extractLsb']
  (repeat rw [BitVec.getLsbD_append])
  interval_cases i <;> simp

theorem encodeB_rs1 (a : Word) (r2 r1 : Reg) (f : BitVec 3) (o : BitVec 7) :
    (Bits.rs1 (encodeB a r2 r1 f o)).bits = r1.bits := by
  simp only [Bits.rs1_bits, encodeB]
  apply BitVec.eq_of_getLsbD_eq; intro i hi
  rw [BitVec.getLsbD_extractLsb']
  (repeat rw [BitVec.getLsbD_append])
  interval_cases i <;> simp

theorem encodeB_rs2 (a : Word) (r2 r1 : Reg) (f : BitVec 3) (o : BitVec 7) :
    (Bits.rs2 (encodeB a r2 r1 f o)).bits = r2.bits := by
  simp only [Bits.rs2_bits, encodeB]
  apply BitVec.eq_of_getLsbD_eq; intro i hi
  rw [BitVec.getLsbD_extractLsb']
  (repeat rw [BitVec.getLsbD_append])
  interval_cases i <;> simp

theorem encodeB_immB (a : Word) (r2 r1 : Reg) (f : BitVec 3) (o : BitVec 7) :
    Bits.immB (encodeB a r2 r1 f o) = (a.extractLsb' 1 12 ++ 0#1).signExtend 32 := by
  unfold Bits.immB Bits.sext; congr 1; unfold encodeB
  apply BitVec.eq_of_getLsbD_eq; intro i hi
  (repeat rw [BitVec.getLsbD_append])
  simp only [BitVec.getLsbD_extractLsb']
  (repeat rw [BitVec.getLsbD_append])
  interval_cases i <;> simp

theorem encodeU_opcode (a : Word) (d : Reg) (o : BitVec 7) :
    Bits.opcode (encodeU a d o) = o := by
  simp only [Bits.opcode, encodeU]
  apply BitVec.eq_of_getLsbD_eq; intro i hi
  rw [BitVec.getLsbD_extractLsb']
  (repeat rw [BitVec.getLsbD_append])
  interval_cases i <;> simp

theorem encodeU_rd (a : Word) (d : Reg) (o : BitVec 7) :
    (Bits.rd (encodeU a d o)).bits = d.bits := by
  simp only [Bits.rd_bits, encodeU]
  apply BitVec.eq_of_getLsbD_eq; intro i hi
  rw [BitVec.getLsbD_extractLsb']
  (repeat rw [BitVec.getLsbD_append])
  interval_cases i <;> simp

theorem encodeU_immU (a : Word) (d : Reg) (o : BitVec 7) :
    Bits.immU (encodeU a d o) = a.extractLsb' 12 20 ++ 0#12 := by
  simp only [Bits.immU, encodeU]
  apply BitVec.eq_of_getLsbD_eq; intro i hi
  (repeat rw [BitVec.getLsbD_append])
  simp only [BitVec.getLsbD_extractLsb']
  (repeat rw [BitVec.getLsbD_append])
  interval_cases i <;> simp

theorem encodeJ_opcode (a : Word) (d : Reg) (o : BitVec 7) :
    Bits.opcode (encodeJ a d o) = o := by
  simp only [Bits.opcode, encodeJ]
  apply BitVec.eq_of_getLsbD_eq; intro i hi
  rw [BitVec.getLsbD_extractLsb']
  (repeat rw [BitVec.getLsbD_append])
  interval_cases i <;> simp

theorem encodeJ_rd (a : Word) (d : Reg) (o : BitVec 7) :
    (Bits.rd (encodeJ a d o)).bits = d.bits := by
  simp only [Bits.rd_bits, encodeJ]
  apply BitVec.eq_of_getLsbD_eq; intro i hi
  rw [BitVec.getLsbD_extractLsb']
  (repeat rw [BitVec.getLsbD_append])
  interval_cases i <;> simp

theorem encodeJ_immJ (a : Word) (d : Reg) (o : BitVec 7) :
    Bits.immJ (encodeJ a d o) = (a.extractLsb' 1 20 ++ 0#1).signExtend 32 := by
  unfold Bits.immJ Bits.sext; congr 1; unfold encodeJ
  apply BitVec.eq_of_getLsbD_eq; intro i hi
  (repeat rw [BitVec.getLsbD_append])
  simp only [BitVec.getLsbD_extractLsb']
  (repeat rw [BitVec.getLsbD_append])
  interval_cases i <;> simp

/-! ### An immediate in its range is what its bits give back (R88) -/

theorem immFits12.eq {a : Word} (h : immFits12 a = true) : (a.extractLsb' 0 12).signExtend 32 = a := by
  simp only [immFits12, decide_eq_true_eq] at h
  apply BitVec.eq_of_toInt_eq
  rw [BitVec.toInt_signExtend_of_le (by decide), BitVec.toInt_eq_toNat_cond]
  have h2 := BitVec.toInt_eq_toNat_cond a
  simp only [BitVec.extractLsb'_toNat, Nat.shiftRight_zero]
  have := a.isLt
  split at h2 <;> split <;> omega

theorem immFitsU.eq {a : Word} (h : immFitsU a = true) : a.extractLsb' 12 20 ++ 0#12 = a := by
  simp only [immFitsU, decide_eq_true_eq] at h
  apply BitVec.eq_of_toNat_eq
  rw [BitVec.toNat_append, ← Nat.shiftLeft_add_eq_or_of_lt (by simp)]
  simp [Nat.shiftLeft_eq, Nat.shiftRight_eq_div_pow]
  have := a.isLt
  omega

theorem immFitsB.eq {a : Word} (h : immFitsB a = true) : (a.extractLsb' 1 12 ++ 0#1).signExtend 32 = a := by
  simp only [immFitsB, decide_eq_true_eq] at h
  apply BitVec.eq_of_toInt_eq
  rw [BitVec.toInt_signExtend_of_le (by decide), BitVec.toInt_eq_toNat_cond]
  have h2 := BitVec.toInt_eq_toNat_cond a
  have h3 : (a.extractLsb' 1 12 ++ 0#1).toNat = a.toNat / 2 % 4096 * 2 := by
    rw [BitVec.toNat_append, ← Nat.shiftLeft_add_eq_or_of_lt (by simp)]
    simp [Nat.shiftLeft_eq, Nat.shiftRight_eq_div_pow]
  rw [h3]
  have := a.isLt
  split at h2 <;> split <;> omega

theorem immFitsJ.eq {a : Word} (h : immFitsJ a = true) : (a.extractLsb' 1 20 ++ 0#1).signExtend 32 = a := by
  simp only [immFitsJ, decide_eq_true_eq] at h
  apply BitVec.eq_of_toInt_eq
  rw [BitVec.toInt_signExtend_of_le (by decide), BitVec.toInt_eq_toNat_cond]
  have h2 := BitVec.toInt_eq_toNat_cond a
  have h3 : (a.extractLsb' 1 20 ++ 0#1).toNat = a.toNat / 2 % 1048576 * 2 := by
    rw [BitVec.toNat_append, ← Nat.shiftLeft_add_eq_or_of_lt (by simp)]
    simp [Nat.shiftLeft_eq, Nat.shiftRight_eq_div_pow]
  rw [h3]
  have := a.isLt
  split at h2 <;> split <;> omega

/-! ### A word is the encoding of its own fields -/

theorem encodeI_fields (w : Word) :
    encodeI (Bits.immI w) (Bits.rs1 w) (Bits.funct3 w) (Bits.rd w) (Bits.opcode w) = w := by
  apply BitVec.eq_of_getLsbD_eq; intro i hi
  unfold encodeI Bits.immI Bits.sext Bits.funct3 Bits.opcode
  repeat rw [BitVec.getLsbD_append]
  simp only [BitVec.getLsbD_extractLsb', BitVec.getLsbD_signExtend]
  interval_cases i <;> simp

theorem encodeR_fields (w : Word) :
    encodeR (Bits.funct7 w) (Bits.rs2 w) (Bits.rs1 w) (Bits.funct3 w) (Bits.rd w) (Bits.opcode w) = w := by
  apply BitVec.eq_of_getLsbD_eq; intro i hi
  unfold encodeR Bits.funct7 Bits.funct3 Bits.opcode
  repeat rw [BitVec.getLsbD_append]
  simp only [BitVec.getLsbD_extractLsb']
  interval_cases i <;> simp

theorem encodeShift_fields (w : Word) :
    encodeShift (Bits.funct7 w) (Bits.shamt w) (Bits.rs1 w) (Bits.funct3 w) (Bits.rd w) (Bits.opcode w) = w := by
  apply BitVec.eq_of_getLsbD_eq; intro i hi
  unfold encodeShift Bits.shamt Bits.funct7 Bits.funct3 Bits.opcode
  repeat rw [BitVec.getLsbD_append]
  simp only [BitVec.getLsbD_extractLsb']
  interval_cases i <;> simp

theorem encodeS_fields (w : Word) :
    encodeS (Bits.immS w) (Bits.rs2 w) (Bits.rs1 w) (Bits.funct3 w) (Bits.opcode w) = w := by
  apply BitVec.eq_of_getLsbD_eq; intro i hi
  unfold encodeS Bits.immS Bits.sext Bits.funct3 Bits.opcode
  repeat rw [BitVec.getLsbD_append]
  simp only [BitVec.getLsbD_extractLsb', BitVec.getLsbD_signExtend]
  repeat rw [BitVec.getLsbD_append]
  simp only [BitVec.getLsbD_extractLsb']
  interval_cases i <;> simp

theorem encodeB_fields (w : Word) :
    encodeB (Bits.immB w) (Bits.rs2 w) (Bits.rs1 w) (Bits.funct3 w) (Bits.opcode w) = w := by
  apply BitVec.eq_of_getLsbD_eq; intro i hi
  unfold encodeB Bits.immB Bits.sext Bits.funct3 Bits.opcode
  repeat rw [BitVec.getLsbD_append]
  simp only [BitVec.getLsbD_extractLsb', BitVec.getLsbD_signExtend]
  repeat rw [BitVec.getLsbD_append]
  simp only [BitVec.getLsbD_extractLsb']
  interval_cases i <;> simp

theorem encodeU_fields (w : Word) :
    encodeU (Bits.immU w) (Bits.rd w) (Bits.opcode w) = w := by
  apply BitVec.eq_of_getLsbD_eq; intro i hi
  unfold encodeU Bits.immU Bits.opcode
  repeat rw [BitVec.getLsbD_append]
  simp only [BitVec.getLsbD_extractLsb']
  repeat rw [BitVec.getLsbD_append]
  simp only [BitVec.getLsbD_extractLsb']
  interval_cases i <;> simp

theorem encodeJ_fields (w : Word) :
    encodeJ (Bits.immJ w) (Bits.rd w) (Bits.opcode w) = w := by
  apply BitVec.eq_of_getLsbD_eq; intro i hi
  unfold encodeJ Bits.immJ Bits.sext Bits.opcode
  repeat rw [BitVec.getLsbD_append]
  simp only [BitVec.getLsbD_extractLsb', BitVec.getLsbD_signExtend]
  repeat rw [BitVec.getLsbD_append]
  simp only [BitVec.getLsbD_extractLsb']
  interval_cases i <;> simp

end Sys2Proof
end

