-- ==== Sys2Proof/Laws/Memory.lean ====
section
/-! SUPPORT. Laws/Memory.lean: reads after writes, and the canonical form that every memory operation keeps. -/

namespace Sys2Proof.Machine

/-- A memory whose entries all lie above an address reads the background there. -/
theorem Memory.read_of_lt : ∀ (m : Memory) (a : Nat), (∀ c ∈ m, a < c.1) → m.read a = Config.unlistedByte
  | [], _, _ => rfl
  | (k, v) :: m, a, h => by
    have hk : k ≠ a := by have := h (k, v) (by simp); simp at this; omega
    simp [Memory.read, hk, Memory.read_of_lt m a fun c hc => h c (by simp [hc])]

theorem Memory.read_entry_same (a : Nat) (b : Byte) (m : Memory) (h : ∀ c ∈ m, a < c.1) :
    (Memory.entry a b m).read a = b := by
  unfold Memory.entry
  split
  · next hb => rw [Memory.read_of_lt m a h, hb]
  · simp [Memory.read]

theorem Memory.read_entry_other {a c : Nat} (b : Byte) (m : Memory) (h : c ≠ a) :
    (Memory.entry a b m).read c = m.read c := by
  unfold Memory.entry
  split
  · rfl
  · simp [Memory.read, Ne.symm h]

/-- A write leaves every other byte alone, in any form of memory. -/
theorem Memory.read_write_other : ∀ (m : Memory) (a c : Nat) (b : Byte), c ≠ a → (m.write a b).read c = m.read c
  | [], a, c, b, h => Memory.read_entry_other b [] h
  | (k, v) :: m, a, c, b, h => by
    unfold Memory.write
    split
    · exact Memory.read_entry_other b _ h
    · split
      · next he => subst he; rw [Memory.read_entry_other b m h]; simp [Memory.read, Ne.symm h]
      · simp [Memory.read, Memory.read_write_other m a c b h]

/-- The tail of a canonical memory lies above its head. -/
theorem Memory.wf_cons {c : Host.Cell} {m : Memory} :
    Memory.wf (c :: m) ↔ (∀ d ∈ m, c.1 < d.1) ∧ c.2 ≠ Config.unlistedByte ∧ m.wf := by
  simp [Memory.wf, List.pairwise_cons]; tauto

/-- A written byte reads back. -/
theorem Memory.read_write_same : ∀ (m : Memory) (a : Nat) (b : Byte), m.wf → (m.write a b).read a = b
  | [], a, b, _ => Memory.read_entry_same a b [] (by simp)
  | (k, v) :: m, a, b, h => by
    obtain ⟨hlt, _, hm⟩ := Memory.wf_cons.mp h
    unfold Memory.write
    split
    · next hak =>
      refine Memory.read_entry_same a b _ fun c hc => ?_
      rcases List.mem_cons.mp hc with rfl | hc
      · exact hak
      · have := hlt c hc; simp only at this; omega
    · split
      · next hak => subst hak; exact Memory.read_entry_same a b m hlt
      · next hak => simp [Memory.read, Ne.symm hak, Memory.read_write_same m a b hm]

theorem Memory.entry_wf {a : Nat} {b : Byte} {m : Memory} (h : ∀ c ∈ m, a < c.1) (hm : m.wf) :
    (Memory.entry a b m).wf := by
  unfold Memory.entry
  split
  · exact hm
  · next hb => exact Memory.wf_cons.mpr ⟨h, hb, hm⟩

theorem Memory.mem_entry {a : Nat} {b : Byte} {m : Memory} {c : Host.Cell} (h : c ∈ Memory.entry a b m) :
    c.1 = a ∨ c ∈ m := by
  unfold Memory.entry at h
  split at h
  · exact .inr h
  · rcases List.mem_cons.mp h with rfl | h
    · exact .inl rfl
    · exact .inr h

/-- An entry after a write is at the written address or was there before. -/
theorem Memory.mem_write : ∀ (m : Memory) (a : Nat) (b : Byte) (c : Host.Cell), c ∈ m.write a b → c.1 = a ∨ c ∈ m
  | [], _, _, _, h => Memory.mem_entry h
  | (k, v) :: m, a, b, c, h => by
    unfold Memory.write at h
    split at h
    · exact Memory.mem_entry h
    · split at h
      · rcases Memory.mem_entry h with h | h
        · exact .inl h
        · exact .inr (by simp [h])
      · rcases List.mem_cons.mp h with rfl | h
        · exact .inr (by simp)
        · rcases Memory.mem_write m a b c h with h | h
          · exact .inl h
          · exact .inr (by simp [h])

/-- A write keeps the canonical form. -/
theorem Memory.write_wf : ∀ (m : Memory) (a : Nat) (b : Byte), m.wf → (m.write a b).wf
  | [], a, b, h => Memory.entry_wf (by simp) h
  | (k, v) :: m, a, b, h => by
    obtain ⟨hlt, hv, hm⟩ := Memory.wf_cons.mp h
    unfold Memory.write
    split
    · next hak =>
      refine Memory.entry_wf (fun c hc => ?_) h
      rcases List.mem_cons.mp hc with rfl | hc
      · exact hak
      · have := hlt c hc; simp only at this; omega
    · split
      · next hak => subst hak; exact Memory.entry_wf hlt hm
      · next h1 h2 =>
        refine Memory.wf_cons.mpr ⟨fun d hd => ?_, hv, Memory.write_wf m a b hm⟩
        rcases Memory.mem_write m a b d hd with hd | hd
        · simp only; omega
        · exact hlt d hd

/-- Beyond its capacity a memory reads the background. -/
theorem Memory.read_of_within : ∀ {m : Memory} {a size : Nat}, m.within size → size ≤ a → m.read a = Config.unlistedByte
  | [], _, _, _, _ => rfl
  | (k, v) :: m, a, size, h, ha => by
    have hk : k ≠ a := by have := h (k, v) (by simp); simp at this; omega
    simp [Memory.read, hk, Memory.read_of_within (m := m) (fun c hc => h c (by simp [hc])) ha]

theorem Memory.write_within {m : Memory} {a size : Nat} (b : Byte) (h : m.within size) (ha : a < size) :
    (m.write a b).within size := fun c hc => by
  rcases Memory.mem_write m a b c hc with e | hc
  · omega
  · exact h c hc

/-! ### Several bytes -/

theorem Memory.writeBytes_wf : ∀ (bs : List Byte) (m : Memory) (a : Nat), m.wf → (m.writeBytes a bs).wf
  | [], _, _, h => h
  | b :: bs, m, a, h => Memory.writeBytes_wf bs _ (a + 1) (Memory.write_wf m a b h)

theorem Memory.writeBytes_within : ∀ (bs : List Byte) (m : Memory) (a size : Nat), m.within size →
    a + bs.length ≤ size → (m.writeBytes a bs).within size
  | [], _, _, _, h, _ => h
  | b :: bs, m, a, size, h, hs => by
    simp only [List.length_cons] at hs
    exact Memory.writeBytes_within bs _ (a + 1) size (Memory.write_within b h (by omega)) (by omega)

/-- Bytes outside the written range read as before. -/
theorem Memory.read_writeBytes_other : ∀ (bs : List Byte) (m : Memory) (a c : Nat),
    c < a ∨ a + bs.length ≤ c → (m.writeBytes a bs).read c = m.read c
  | [], _, _, _, _ => rfl
  | b :: bs, m, a, c, h => by
    simp only [List.length_cons] at h
    rw [Memory.writeBytes, Memory.read_writeBytes_other bs _ (a + 1) c (by omega),
      Memory.read_write_other m a c b (by omega)]

/-- Each written byte reads back. -/
theorem Memory.read_writeBytes_same : ∀ (bs : List Byte) (m : Memory) (a k : Nat) (h : k < bs.length), m.wf →
    (m.writeBytes a bs).read (a + k) = bs[k]
  | b :: bs, m, a, 0, _, hm => by
    rw [Memory.writeBytes, Memory.read_writeBytes_other _ _ _ _ (by omega)]
    simpa using Memory.read_write_same m a b hm
  | b :: bs, m, a, k + 1, h, hm => by
    have := Memory.read_writeBytes_same bs (m.write a b) (a + 1) k (by simpa using h) (Memory.write_wf m a b hm)
    rw [Memory.writeBytes, show a + (k + 1) = a + 1 + k by omega, this]; simp

@[simp] theorem Memory.readBytes_length (m : Memory) (a n : Nat) : (m.readBytes a n).length = n := by
  simp [Memory.readBytes]

theorem Memory.readBytes_getD (m : Memory) (a n k : Nat) (h : k < n) :
    (m.readBytes a n).getD k 0 = m.read (a + k) := by
  simp [Memory.readBytes, List.getD_eq_getElem?_getD, h]

end Sys2Proof.Machine
end

