-- ==== Sys2Proof/Laws/State.lean ====
section
/-! SUPPORT. Laws/State.lean: each field of the state after each update, so that no proof unfolds a record update. -/

namespace Sys2Proof.Machine

@[simp] theorem State.writeReg_pc (s : State) (i : Reg) (v : Word) : (s.writeReg i v).pc = s.pc := by
  unfold State.writeReg; split <;> rfl
@[simp] theorem State.writeReg_mem (s : State) (i : Reg) (v : Word) : (s.writeReg i v).mem = s.mem := by
  unfold State.writeReg; split <;> rfl
@[simp] theorem State.writeReg_runState (s : State) (i : Reg) (v : Word) : (s.writeReg i v).runState = s.runState := by
  unfold State.writeReg; split <;> rfl
@[simp] theorem State.writeReg_memSize (s : State) (i : Reg) (v : Word) : (s.writeReg i v).memSize = s.memSize := by
  unfold State.writeReg; split <;> rfl
@[simp] theorem State.writeReg_halt (s : State) (i : Reg) (v : Word) : (s.writeReg i v).halt = s.halt := by
  unfold State.writeReg; split <;> rfl
@[simp] theorem State.writeReg_stop (s : State) (i : Reg) (v : Word) : (s.writeReg i v).stop = s.stop := by
  unfold State.writeReg; split <;> rfl

@[simp] theorem State.jumpTo_regs (s : State) (t : Word) : (s.jumpTo t).regs = s.regs := rfl
@[simp] theorem State.jumpTo_pc (s : State) (t : Word) : (s.jumpTo t).pc = t := rfl
@[simp] theorem State.jumpTo_mem (s : State) (t : Word) : (s.jumpTo t).mem = s.mem := rfl
@[simp] theorem State.jumpTo_runState (s : State) (t : Word) : (s.jumpTo t).runState = s.runState := rfl
@[simp] theorem State.jumpTo_memSize (s : State) (t : Word) : (s.jumpTo t).memSize = s.memSize := rfl
@[simp] theorem State.jumpTo_halt (s : State) (t : Word) : (s.jumpTo t).halt = s.halt := rfl
@[simp] theorem State.jumpTo_stop (s : State) (t : Word) : (s.jumpTo t).stop = s.stop := rfl
@[simp] theorem State.jumpTo_readReg (s : State) (t : Word) (r : Reg) : (s.jumpTo t).readReg r = s.readReg r := rfl

@[simp] theorem State.advance_regs (s : State) : s.advance.regs = s.regs := rfl
@[simp] theorem State.advance_pc (s : State) : s.advance.pc = s.nextPc := rfl
@[simp] theorem State.advance_mem (s : State) : s.advance.mem = s.mem := rfl
@[simp] theorem State.advance_runState (s : State) : s.advance.runState = s.runState := rfl
@[simp] theorem State.advance_memSize (s : State) : s.advance.memSize = s.memSize := rfl
@[simp] theorem State.advance_halt (s : State) : s.advance.halt = s.halt := rfl
@[simp] theorem State.advance_stop (s : State) : s.advance.stop = s.stop := rfl
@[simp] theorem State.advance_readReg (s : State) (r : Reg) : s.advance.readReg r = s.readReg r := rfl

@[simp] theorem State.raise_regs (s : State) (k : FaultKind) (a : Word) (w : Option Word) : (s.raise k a w).regs = s.regs := rfl
@[simp] theorem State.raise_pc (s : State) (k : FaultKind) (a : Word) (w : Option Word) : (s.raise k a w).pc = s.pc := rfl
@[simp] theorem State.raise_mem (s : State) (k : FaultKind) (a : Word) (w : Option Word) : (s.raise k a w).mem = s.mem := rfl
@[simp] theorem State.raise_runState (s : State) (k : FaultKind) (a : Word) (w : Option Word) : (s.raise k a w).runState = .faulted { kind := k, fetchAddr := s.pc, addr := a, instr := w } := rfl
@[simp] theorem State.raise_memSize (s : State) (k : FaultKind) (a : Word) (w : Option Word) : (s.raise k a w).memSize = s.memSize := rfl
@[simp] theorem State.raise_halt (s : State) (k : FaultKind) (a : Word) (w : Option Word) : (s.raise k a w).halt = s.halt := rfl
@[simp] theorem State.raise_stop (s : State) (k : FaultKind) (a : Word) (w : Option Word) : (s.raise k a w).stop = s.stop := rfl
@[simp] theorem State.raise_readReg (s : State) (k : FaultKind) (a : Word) (w : Option Word) (r : Reg) : (s.raise k a w).readReg r = s.readReg r := rfl

@[simp] theorem State.enterHalted_regs (s : State) : s.enterHalted.regs = s.regs := rfl
@[simp] theorem State.enterHalted_pc (s : State) : s.enterHalted.pc = s.pc := rfl
@[simp] theorem State.enterHalted_mem (s : State) : s.enterHalted.mem = s.mem := rfl
@[simp] theorem State.enterHalted_runState (s : State) : s.enterHalted.runState = .halted := rfl
@[simp] theorem State.enterHalted_memSize (s : State) : s.enterHalted.memSize = s.memSize := rfl
@[simp] theorem State.enterHalted_halt (s : State) : s.enterHalted.halt = s.halt := rfl
@[simp] theorem State.enterHalted_stop (s : State) : s.enterHalted.stop = s.stop := rfl
@[simp] theorem State.enterHalted_readReg (s : State) (r : Reg) : s.enterHalted.readReg r = s.readReg r := rfl

@[simp] theorem State.sampleStop_regs (s : State) : s.sampleStop.regs = s.regs := rfl
@[simp] theorem State.sampleStop_pc (s : State) : s.sampleStop.pc = s.pc := rfl
@[simp] theorem State.sampleStop_mem (s : State) : s.sampleStop.mem = s.mem := rfl
@[simp] theorem State.sampleStop_runState (s : State) : s.sampleStop.runState = s.runState := rfl
@[simp] theorem State.sampleStop_memSize (s : State) : s.sampleStop.memSize = s.memSize := rfl
@[simp] theorem State.sampleStop_halt (s : State) : s.sampleStop.halt = s.halt := rfl
@[simp] theorem State.sampleStop_stop (s : State) : s.sampleStop.stop = s.stop.tail := rfl
@[simp] theorem State.sampleStop_readReg (s : State) (r : Reg) : s.sampleStop.readReg r = s.readReg r := rfl

@[simp] theorem State.resetWith_pc (p : Params) (stop : List Bool) :
    (State.resetWith p stop).pc = entryAddress p := rfl
@[simp] theorem State.resetWith_mem (p : Params) (stop : List Bool) :
    (State.resetWith p stop).mem = Memory.init p := rfl
@[simp] theorem State.resetWith_runState (p : Params) (stop : List Bool) :
    (State.resetWith p stop).runState = .running := rfl
@[simp] theorem State.resetWith_memSize (p : Params) (stop : List Bool) :
    (State.resetWith p stop).memSize = p.memSize := rfl
@[simp] theorem State.resetWith_halt (p : Params) (stop : List Bool) :
    (State.resetWith p stop).halt = p.halt := rfl
@[simp] theorem State.resetWith_stop (p : Params) (stop : List Bool) :
    (State.resetWith p stop).stop = stop := rfl

/-! ### Registers (10_state.md R22, R23) -/

@[simp] theorem State.readReg_zero (s : State) : s.readReg 0 = 0 := rfl

@[simp] theorem State.writeReg_zero (s : State) (v : Word) : s.writeReg 0 v = s := rfl

theorem State.readReg_of_ne (s : State) {i : Reg} (h : i ≠ 0) (hi : i.val - 1 < 31) :
    s.readReg i = s.regs[i.val - 1] := by
  simp [State.readReg, h]

/-- A written register reads back, any other reads as before, and x0 is never written. -/
theorem State.readReg_writeReg (s : State) (i j : Reg) (v : Word) :
    (s.writeReg i v).readReg j = if j = i ∧ i ≠ 0 then v else s.readReg j := by
  by_cases hi : i = 0
  · subst hi; simp
  · by_cases hj : j = 0
    · subst hj; simp [Ne.symm hi]
    · have hv : j = i ↔ i.val - 1 = j.val - 1 := by
        have hi' : i.val ≠ 0 := fun e => hi (Fin.ext e)
        have hj' : j.val ≠ 0 := fun e => hj (Fin.ext e)
        rw [Fin.ext_iff]; omega
      simp [State.readReg, State.writeReg, hi, hj, hv, Vector.getElem_set]

@[simp] theorem State.readReg_writeReg_same (s : State) {i : Reg} (h : i ≠ 0) (v : Word) :
    (s.writeReg i v).readReg i = v := by simp [State.readReg_writeReg, h]

@[simp] theorem State.readReg_writeReg_other (s : State) {i j : Reg} (h : j ≠ i) (v : Word) :
    (s.writeReg i v).readReg j = s.readReg j := by simp [State.readReg_writeReg, h]

/-- The destination of a commit: the value, or zero for x0. -/
theorem State.readReg_writeReg_dest (s : State) (i : Reg) (v : Word) :
    (s.writeReg i v).readReg i = if i = 0 then 0 else v := by
  by_cases h : i = 0
  · subst h; simp
  · simp [h]

/-! ### The fault record -/

@[simp] theorem State.faultRecord_raise (s : State) (k : FaultKind) (a : Word) (w : Option Word) :
    (s.raise k a w).faultRecord = some { kind := k, fetchAddr := s.pc, addr := a, instr := w } := rfl

theorem State.faultRecord_eq_some (s : State) (r : FaultRecord) :
    s.faultRecord = some r ↔ s.runState = .faulted r := by
  unfold State.faultRecord; split <;> simp_all

end Sys2Proof.Machine
end

