-- ==== Sys2Proof/Laws/Ops.lean ====
section
/-! SUPPORT. Laws/Ops.lean: what each shared operation of Machine/Ops.lean can do, said once. -/

namespace Sys2Proof.Machine

theorem State.inBounds_iff (s : State) (a : Word) (n : Nat) : s.inBounds a n = true ↔ a.toNat + n ≤ s.memSize := by
  simp [State.inBounds]

/-- A read gives the bytes exactly when the whole access is in bounds (20_memory.md R55, R56). -/
theorem State.memRead_eq_some (s : State) (a : Word) (n : Nat) (bs : List Byte) :
    s.memRead a n = some bs ↔ a.toNat + n ≤ s.memSize ∧ bs = s.mem.readBytes a.toNat n := by
  unfold State.memRead
  split
  · next h => simp [(s.inBounds_iff a n).mp h, eq_comm]
  · next h => simp [mt (s.inBounds_iff a n).mpr h]

theorem State.memRead_eq_none (s : State) (a : Word) (n : Nat) :
    s.memRead a n = none ↔ s.memSize < a.toNat + n := by
  have h := s.inBounds_iff a n
  unfold State.memRead
  by_cases hb : s.inBounds a n = true <;> simp [hb] <;> simp [hb] at h <;> omega

/-- A write takes place exactly when the whole access is in bounds, and changes only memory (R55, R57). -/
theorem State.memWrite_eq_some (s t : State) (a : Word) (bs : List Byte) :
    s.memWrite a bs = some t ↔ a.toNat + bs.length ≤ s.memSize ∧ t = { s with mem := s.mem.writeBytes a.toNat bs } := by
  unfold State.memWrite
  split
  · next h => simp [(s.inBounds_iff a bs.length).mp h, eq_comm]
  · next h => simp [mt (s.inBounds_iff a bs.length).mpr h]

theorem State.memWrite_eq_none (s : State) (a : Word) (bs : List Byte) :
    s.memWrite a bs = none ↔ s.memSize < a.toNat + bs.length := by
  have h := s.inBounds_iff a bs.length
  unfold State.memWrite
  by_cases hb : s.inBounds a bs.length = true <;> simp [hb] <;> simp [hb] at h <;> omega

/-- A raw value is loaded exactly when the access is in bounds and its bytes are memory's, lowest first (R56). -/
theorem State.load_eq_some (s : State) (a : Word) (n w : Nat) (hw : w = 8 * n) (v : BitVec w) :
    (s.memRead a n).map (Bits.ofLE w) = some v ↔
      a.toNat + n ≤ s.memSize ∧ ∀ k < n, v.extractLsb' (8 * k) 8 = s.mem.read (a.toNat + k) := by
  rw [Option.map_eq_some_iff]
  constructor
  · rintro ⟨bs, hr, rfl⟩
    obtain ⟨hb, rfl⟩ := (s.memRead_eq_some a n bs).mp hr
    refine ⟨hb, fun k hk => ?_⟩
    rw [Bits.ofLE_byte w _ k (by omega), Memory.readBytes_getD _ _ _ _ hk]
  · rintro ⟨hb, hv⟩
    refine ⟨_, (s.memRead_eq_some a n _).mpr ⟨hb, rfl⟩, ?_⟩
    refine (Bits.eq_ofLE w n hw v _ fun k hk => ?_).symm
    rw [hv k hk, Memory.readBytes_getD _ _ _ _ hk]

theorem State.loadByte_eq_some (s : State) (a : Word) (v : BitVec 8) :
    s.loadByte a = some v ↔
      a.toNat + 1 ≤ s.memSize ∧ ∀ k < 1, v.extractLsb' (8 * k) 8 = s.mem.read (a.toNat + k) :=
  s.load_eq_some a 1 8 rfl v

theorem State.loadHalf_eq_some (s : State) (a : Word) (v : BitVec 16) :
    s.loadHalf a = some v ↔
      a.toNat + 2 ≤ s.memSize ∧ ∀ k < 2, v.extractLsb' (8 * k) 8 = s.mem.read (a.toNat + k) :=
  s.load_eq_some a 2 16 rfl v

theorem State.loadWord_eq_some (s : State) (a : Word) (v : Word) :
    s.loadWord a = some v ↔
      a.toNat + 4 ≤ s.memSize ∧ ∀ k < 4, v.extractLsb' (8 * k) 8 = s.mem.read (a.toNat + k) :=
  s.load_eq_some a 4 32 rfl v

theorem State.loadByte_eq_none (s : State) (a : Word) : s.loadByte a = none ↔ s.memSize < a.toNat + 1 := by
  simp [State.loadByte, State.memRead_eq_none]

theorem State.loadHalf_eq_none (s : State) (a : Word) : s.loadHalf a = none ↔ s.memSize < a.toNat + 2 := by
  simp [State.loadHalf, State.memRead_eq_none]

theorem State.loadWord_eq_none (s : State) (a : Word) : s.loadWord a = none ↔ s.memSize < a.toNat + 4 := by
  simp [State.loadWord, State.memRead_eq_none]

/-! ### Fetch (46_step_sequencer.md R212) -/

theorem State.fetch_eq_ok (s : State) (w : Word) :
    s.fetch = .ok w ↔ s.pc.toNat % 4 = 0 ∧ s.loadWord s.pc = some w := by
  unfold State.fetch State.fetchAligned Config.fetchAlign
  by_cases h : s.pc.toNat % 4 = 0
  · cases hl : s.loadWord s.pc <;> simp [h]
  · simp [h]

theorem State.fetch_eq_error (s : State) (k : FaultKind) :
    s.fetch = .error k ↔ (s.pc.toNat % 4 ≠ 0 ∧ k = .misalignedFetch) ∨
      (s.pc.toNat % 4 = 0 ∧ s.memSize < s.pc.toNat + 4 ∧ k = .outOfBounds) := by
  have hn := s.loadWord_eq_none s.pc
  unfold State.fetch State.fetchAligned Config.fetchAlign
  by_cases h : s.pc.toNat % 4 = 0
  · cases hl : s.loadWord s.pc <;> simp [hl] at hn <;> simp [h, eq_comm] <;> omega
  · simp [h, eq_comm]

/-- Sampling STOP touches nothing a fetch reads. -/
@[simp] theorem State.fetch_sampleStop (s : State) : s.sampleStop.fetch = s.fetch := rfl

@[simp] theorem State.currentWord_sampleStop (s : State) : s.sampleStop.currentWord = s.currentWord := rfl

@[simp] theorem State.haltMatches_sampleStop (s : State) (w : Word) :
    s.sampleStop.haltMatches w = s.haltMatches w := rfl

/-- The current instruction has no alignment check: it is there exactly when its four bytes are below MEM_SIZE. -/
theorem State.currentWord_eq_some (s : State) (w : Word) :
    s.currentWord = some w ↔
      s.pc.toNat + 4 ≤ s.memSize ∧ ∀ k < 4, w.extractLsb' (8 * k) 8 = s.mem.read (s.pc.toNat + k) :=
  s.loadWord_eq_some s.pc w

theorem State.currentWord_eq_none (s : State) : s.currentWord = none ↔ s.memSize < s.pc.toNat + 4 :=
  s.loadWord_eq_none s.pc

/-- After a successful fetch the current instruction is the fetched word. -/
theorem State.currentWord_of_fetch {s : State} {w : Word} (h : s.fetch = .ok w) : s.currentWord = some w := by
  exact ((s.fetch_eq_ok w).mp h).2

theorem State.haltMatches_eq_true (s : State) (w : Word) :
    s.haltMatches w = true ↔ ∃ p ∈ s.halt, s.pc &&& p.pcMask = p.pcValue ∧ w &&& p.wordMask = p.wordValue := by
  simp [State.haltMatches, haltPatternMatches]

end Sys2Proof.Machine
end

