-- ==== Sys2Proof/Laws/Exec.lean ====
section
/-! SUPPORT. Laws/Exec.lean: what the shared forms of the meanings do, said once: a commit to a register, a load, a
store, a branch, a jump. -/

namespace Sys2Proof.Machine

/-- A commit writes x[rd] and goes to pc + 4. -/
theorem State.writeBack_eq (s : State) (rd : Reg) (v : Word) :
    ∃ t, s.writeBack rd v = .next t ∧ WritesReg s t rd v (s.pc + 4) := by
  refine ⟨_, rfl, ?_, ?_, ?_, ?_, ?_, ?_⟩
  · simpa using s.readReg_writeReg_dest rd v
  · intro r hr; simp [hr]
  · simp [State.nextPc]
  · intro a; simp
  · simp
  · exact ⟨by simp, by simp, by simp⟩

/-- A jump writes the link and goes to its target. -/
theorem State.jumpAndLink_eq (s : State) (rd : Reg) (npc : Word) :
    ∃ t, s.jumpAndLink rd npc = .next t ∧ WritesReg s t rd (s.pc + 4) npc := by
  refine ⟨_, rfl, ?_, ?_, ?_, ?_, ?_, ?_⟩
  · simpa [State.linkValue] using s.readReg_writeReg_dest rd (s.pc + 4)
  · intro r hr; simp [hr]
  · simp
  · intro a; simp
  · simp
  · exact ⟨by simp, by simp, by simp⟩

/-- Setting the pc sets nothing else. -/
theorem State.setsPc_jumpTo (s : State) (npc : Word) : SetsPc s (s.jumpTo npc) npc :=
  ⟨fun _ => rfl, rfl, fun _ => rfl, rfl, rfl, rfl, rfl⟩

/-- A branch goes to pc + imm when taken, else to pc + 4. -/
theorem State.branch_eq (s : State) (taken : Bool) (imm : Word) :
    ∃ t, s.branch taken imm = .next t ∧ SetsPc s t (if taken then s.pc + imm else s.pc + 4) := by
  refine ⟨_, rfl, ?_⟩
  cases taken
  · exact s.setsPc_jumpTo _
  · exact s.setsPc_jumpTo _

/-- A data fault changes only the run state. -/
theorem State.dataFault_only (s : State) (ea : Word) :
    OnlyRunState s (s.dataFault ea) (.faulted ⟨.outOfBounds, s.pc, ea, s.currentWord⟩) :=
  ⟨rfl, fun _ => rfl, rfl, fun _ => rfl, rfl, rfl⟩

/-- A load commits the extended raw value, or faults at its address. -/
theorem execLoad_cases {n : Nat} (load : State → Word → Option (BitVec n)) (extend : BitVec n → Word)
    (rd rs1 : Reg) (imm : Word) (s : State) :
    (∃ raw, load s (s.effectiveAddress rs1 imm) = some raw ∧
      execLoad load extend rd rs1 imm s = s.writeBack rd (extend raw)) ∨
    (load s (s.effectiveAddress rs1 imm) = none ∧
      execLoad load extend rd rs1 imm s = .next (s.dataFault (s.effectiveAddress rs1 imm))) := by
  unfold execLoad
  cases load s (s.effectiveAddress rs1 imm) with
  | some raw => exact .inl ⟨raw, rfl, rfl⟩
  | none => exact .inr ⟨rfl, rfl⟩

/-- A store commits its memory, or faults at its address. -/
theorem execStore_cases {n : Nat} (store : State → Word → BitVec n → Option State)
    (rs1 rs2 : Reg) (imm : Word) (s : State) :
    (∃ t, store s (s.effectiveAddress rs1 imm) ((s.readReg rs2).setWidth n) = some t ∧
      execStore store rs1 rs2 imm s = .next t.advance) ∨
    (store s (s.effectiveAddress rs1 imm) ((s.readReg rs2).setWidth n) = none ∧
      execStore store rs1 rs2 imm s = .next (s.dataFault (s.effectiveAddress rs1 imm))) := by
  unfold execStore
  cases store s (s.effectiveAddress rs1 imm) ((s.readReg rs2).setWidth n) with
  | some t => exact .inl ⟨t, rfl, rfl⟩
  | none => exact .inr ⟨rfl, rfl⟩

/-! ### Everything an instruction can do -/

/-- The state of a store's memory write, before the pc advances. -/
abbrev State.stored (s : State) (ea : Word) (bytes : List Byte) : State :=
  { s with mem := s.mem.writeBytes ea.toNat bytes }

/-- The ways an instruction can end: one case for each kind of commit, and the data fault. -/
inductive ExecCase (i : Instr) (s t : State) : Prop where
  /-- A result goes to x[rd], the pc to pc + 4. -/
  | result (rd : Reg) (v : Word) (hrd : i.rd = some rd) (hpc : i.mnemonic.format ≠ .B ∧ i.mnemonic.format ≠ .J)
      (hjalr : i.mnemonic ≠ .jalr) (hstore : isStore i = false)
      (haccess : ∀ ea n, dataAccess s i = some (ea, n) → ea.toNat + n ≤ s.memSize)
      (ht : t = (s.writeReg rd v).advance)
  /-- JAL. -/
  | jal (rd : Reg) (imm : Word) (hi : i = .jal rd imm) (ht : t = (s.writeReg rd s.linkValue).jumpTo (s.pcRelative imm))
  /-- JALR. -/
  | jalr (rd rs1 : Reg) (imm : Word) (hi : i = .jalr rd rs1 imm)
      (ht : t = (s.writeReg rd s.linkValue).jumpTo (s.jalrTarget rs1 imm))
  /-- A branch, taken exactly when its relation holds. -/
  | branch (imm : Word) (taken : Bool) (hformat : i.mnemonic.format = .B) (himm : i.imm = some imm)
      (htaken : branchTaken s i = some taken) (ht : t = if taken then s.jumpTo (s.pcRelative imm) else s.advance)
  /-- A store in bounds. -/
  | store (ea : Word) (bytes : List Byte) (hstore : isStore i = true)
      (haccess : dataAccess s i = some (ea, bytes.length)) (hbounds : ea.toNat + bytes.length ≤ s.memSize)
      (ht : t = (s.stored ea bytes).advance)
  /-- FENCE, ECALL, EBREAK. -/
  | noop (hi : i.mnemonic = .fence ∨ i.mnemonic = .ecall ∨ i.mnemonic = .ebreak) (ht : t = s.advance)
  /-- A load or store out of bounds. -/
  | fault (ea : Word) (n : Nat) (hn : 0 < n) (haccess : dataAccess s i = some (ea, n))
      (hbounds : s.memSize < ea.toNat + n) (ht : t = s.dataFault ea)

/-- A load is a result or a fault. -/
theorem execLoad_execCase {n k : Nat} {load : State → Word → Option (BitVec n)} {extend : BitVec n → Word}
    {rd rs1 : Reg} {imm : Word} {i : Instr} {s t : State} (hk : 0 < k)
    (hload : ∀ a, load s a = none ↔ s.memSize < a.toNat + k) (hrd : i.rd = some rd)
    (hf : i.mnemonic.format = .I) (hj : i.mnemonic ≠ .jalr) (hst : isStore i = false)
    (hacc : dataAccess s i = some (s.effectiveAddress rs1 imm, k))
    (h : execLoad load extend rd rs1 imm s = .next t) : ExecCase i s t := by
  rcases execLoad_cases load extend rd rs1 imm s with ⟨raw, hl, he⟩ | ⟨hl, he⟩
  · rw [he] at h
    refine .result rd (extend raw) hrd (by simp [hf]) hj hst (fun ea n' ha => ?_) (Host.Outcome.next.inj h).symm
    rw [hacc, Option.some.injEq, Prod.mk.injEq] at ha
    obtain ⟨rfl, rfl⟩ := ha
    have := mt (hload (s.effectiveAddress rs1 imm)).mpr (by simp [hl])
    omega
  · rw [he] at h
    exact .fault _ k hk hacc ((hload _).mp hl) (Host.Outcome.next.inj h).symm

/-- A store is a store or a fault. -/
theorem execStore_execCase {n k : Nat} {rs1 rs2 : Reg} {imm : Word} {i : Instr} {s t : State} (hk : 0 < k)
    (hst : isStore i = true) (hacc : dataAccess s i = some (s.effectiveAddress rs1 imm, k))
    (h : execStore (fun s a (v : BitVec n) => s.memWrite a (Bits.leBytes k v)) rs1 rs2 imm s = .next t) :
    ExecCase i s t := by
  rcases execStore_cases (fun s a (v : BitVec n) => s.memWrite a (Bits.leBytes k v)) rs1 rs2 imm s with
    ⟨u, hw, he⟩ | ⟨hw, he⟩
  · rw [he] at h
    obtain ⟨hb, rfl⟩ := (s.memWrite_eq_some u _ _).mp hw
    exact .store _ _ hst (by rw [Bits.leBytes_length]; exact hacc) hb (Host.Outcome.next.inj h).symm
  · rw [he] at h
    have := (s.memWrite_eq_none _ _).mp hw
    exact .fault _ k hk hacc (by simpa using this) (Host.Outcome.next.inj h).symm

/-- Inversion of exec: whatever an instruction answers as a next state is one of the cases. -/
theorem exec_cases {i : Instr} {s t : State} (h : exec i s = .next t) : ExecCase i s t := by
  cases i with
  | jal rd imm => exact .jal rd imm rfl (Host.Outcome.next.inj h).symm
  | jalr rd rs1 imm => exact .jalr rd rs1 imm rfl (Host.Outcome.next.inj h).symm
  | beq rs1 rs2 imm =>
    exact .branch imm _ rfl rfl (by simp [branchTaken, beq_eq_decide]) (Host.Outcome.next.inj h).symm
  | bne rs1 rs2 imm =>
    exact .branch imm _ rfl rfl (by simp [branchTaken, bne, beq_eq_decide]) (Host.Outcome.next.inj h).symm
  | blt rs1 rs2 imm =>
    exact .branch imm _ rfl rfl (by simp [branchTaken, lessSigned]) (Host.Outcome.next.inj h).symm
  | bge rs1 rs2 imm =>
    exact .branch imm _ rfl rfl (by simp [branchTaken, lessSigned, ← decide_not]) (Host.Outcome.next.inj h).symm
  | bltu rs1 rs2 imm =>
    exact .branch imm _ rfl rfl (by simp [branchTaken, lessUnsigned]) (Host.Outcome.next.inj h).symm
  | bgeu rs1 rs2 imm =>
    exact .branch imm _ rfl rfl (by simp [branchTaken, lessUnsigned, ← decide_not]) (Host.Outcome.next.inj h).symm
  | lb rd rs1 imm => exact execLoad_execCase (by decide) s.loadByte_eq_none rfl rfl nofun rfl rfl h
  | lh rd rs1 imm => exact execLoad_execCase (by decide) s.loadHalf_eq_none rfl rfl nofun rfl rfl h
  | lw rd rs1 imm => exact execLoad_execCase (by decide) s.loadWord_eq_none rfl rfl nofun rfl rfl h
  | lbu rd rs1 imm => exact execLoad_execCase (by decide) s.loadByte_eq_none rfl rfl nofun rfl rfl h
  | lhu rd rs1 imm => exact execLoad_execCase (by decide) s.loadHalf_eq_none rfl rfl nofun rfl rfl h
  | sb rs1 rs2 imm => exact execStore_execCase (k := 1) (by decide) rfl rfl h
  | sh rs1 rs2 imm => exact execStore_execCase (k := 2) (by decide) rfl rfl h
  | sw rs1 rs2 imm => exact execStore_execCase (k := 4) (by decide) rfl rfl h
  | fence rd rs1 imm => exact .noop (.inl rfl) (Host.Outcome.next.inj h).symm
  | ecall => exact .noop (.inr (.inl rfl)) (Host.Outcome.next.inj h).symm
  | ebreak => exact .noop (.inr (.inr rfl)) (Host.Outcome.next.inj h).symm
  | _ =>
    exact .result _ _ rfl ⟨nofun, nofun⟩ nofun rfl (fun _ _ ha => by simp [dataAccess] at ha)
      (Host.Outcome.next.inj h).symm

/-- No instruction changes a parameter or the STOP input. -/
theorem exec_inputs {i : Instr} {s t : State} (h : exec i s = .next t) : SameInputs s t := by
  cases exec_cases h with
  | branch imm taken _ _ _ ht => subst ht; cases taken <;> exact ⟨rfl, rfl, rfl⟩
  | _ => subst_vars; exact ⟨by simp [State.dataFault], by simp [State.dataFault], by simp [State.dataFault]⟩

/-- An instruction keeps the run state, its access if any being in bounds, or it is a data fault. -/
theorem exec_runState {i : Instr} {s t : State} (h : exec i s = .next t) :
    (t.runState = s.runState ∧ ∀ ea n, dataAccess s i = some (ea, n) → ea.toNat + n ≤ s.memSize) ∨
    ∃ ea n, 0 < n ∧ dataAccess s i = some (ea, n) ∧ s.memSize < ea.toNat + n ∧ t = s.dataFault ea := by
  cases exec_cases h with
  | fault ea n hn ha hb ht => exact .inr ⟨ea, n, hn, ha, hb, ht⟩
  | result rd v _ _ _ _ ha ht => exact .inl ⟨by simp [ht], ha⟩
  | jal rd imm hi ht => subst hi; exact .inl ⟨by simp [ht], by simp [dataAccess]⟩
  | jalr rd rs1 imm hi ht => subst hi; exact .inl ⟨by simp [ht], by simp [dataAccess]⟩
  | branch imm taken hf _ _ ht =>
    refine .inl ⟨by subst ht; cases taken <;> rfl, ?_⟩
    cases i <;> simp [Instr.mnemonic, Mnemonic.format] at hf <;> simp [dataAccess]
  | noop hi ht =>
    refine .inl ⟨by simp [ht], ?_⟩
    cases i <;> simp [Instr.mnemonic] at hi <;> simp [dataAccess]
  | store ea bs hst ha hb ht =>
    refine .inl ⟨by simp [ht], fun ea' n h' => ?_⟩
    rw [ha] at h'; cases h'; exact hb

/-! ### Operands and results -/

/-- The shift amount is the register modulo 32 (40_alu.md R140). -/
theorem shiftAmount_eq (v : Word) : shiftAmount v = v.toNat % 32 := by simp [shiftAmount]

/-- The arithmetic right shift is the floor of the signed quotient. -/
theorem sshiftRight_toInt (a : Word) (n : Nat) : (a.sshiftRight n).toInt = a.toInt / 2 ^ n := by
  rw [BitVec.toInt_sshiftRight, Int.shiftRight_eq_div_pow]; norm_cast

theorem boolWord_decide (P : Prop) [Decidable P] : boolWord (decide P) = if P then 1 else 0 := by
  by_cases P <;> simp [boolWord, *]

/-- Clearing bit 0 makes a value even (44_jump.md R192). -/
theorem and_clearBit0 (v : Word) : (v &&& 0xFFFFFFFE#32).toNat = v.toNat / 2 * 2 := by
  have h : v &&& 0xFFFFFFFE#32 = (v >>> 1) <<< 1 := by
    apply BitVec.eq_of_getLsbD_eq; intro i hi
    interval_cases i <;> simp
  rw [h]
  simp only [BitVec.toNat_shiftLeft, BitVec.toNat_ushiftRight, Nat.shiftLeft_eq, Nat.shiftRight_eq_div_pow]
  have := v.isLt
  omega

end Sys2Proof.Machine
end

