-- ==== Sys2Proof/Laws/PerInstr.lean ====
section
/-! SUPPORT. Laws/PerInstr.lean: one lemma per instruction: its encoding is a word of its own row of the table of
30_encoding.md R95. -/

/-- The encoding of an instruction agrees with its row's match under its row's mask, whatever its operands. -/
def Sys2Proof.Laws.EncodeMatchesRow.Statement (i : Sys2Proof.Instr) : Prop :=
  Sys2Proof.encode i &&& i.mnemonic.mask = i.mnemonic.matchWord

open Sys2Proof

theorem Sys2Proof.Laws.EncodeMatchesRow.lui (rd : Reg) (imm : Word) :
    Laws.EncodeMatchesRow.Statement (.lui rd imm) :=
  (Mnemonic.match_iff_fields _ .lui).mpr (encodeU_opcode ..)

theorem Sys2Proof.Laws.EncodeMatchesRow.auipc (rd : Reg) (imm : Word) :
    Laws.EncodeMatchesRow.Statement (.auipc rd imm) :=
  (Mnemonic.match_iff_fields _ .auipc).mpr (encodeU_opcode ..)

theorem Sys2Proof.Laws.EncodeMatchesRow.jal (rd : Reg) (imm : Word) :
    Laws.EncodeMatchesRow.Statement (.jal rd imm) :=
  (Mnemonic.match_iff_fields _ .jal).mpr (encodeJ_opcode ..)

theorem Sys2Proof.Laws.EncodeMatchesRow.jalr (rd rs1 : Reg) (imm : Word) :
    Laws.EncodeMatchesRow.Statement (.jalr rd rs1 imm) :=
  (Mnemonic.match_iff_fields _ .jalr).mpr ⟨encodeI_opcode .., encodeI_funct3 ..⟩

theorem Sys2Proof.Laws.EncodeMatchesRow.beq (rs1 rs2 : Reg) (imm : Word) :
    Laws.EncodeMatchesRow.Statement (.beq rs1 rs2 imm) :=
  (Mnemonic.match_iff_fields _ .beq).mpr ⟨encodeB_opcode .., encodeB_funct3 ..⟩

theorem Sys2Proof.Laws.EncodeMatchesRow.bne (rs1 rs2 : Reg) (imm : Word) :
    Laws.EncodeMatchesRow.Statement (.bne rs1 rs2 imm) :=
  (Mnemonic.match_iff_fields _ .bne).mpr ⟨encodeB_opcode .., encodeB_funct3 ..⟩

theorem Sys2Proof.Laws.EncodeMatchesRow.blt (rs1 rs2 : Reg) (imm : Word) :
    Laws.EncodeMatchesRow.Statement (.blt rs1 rs2 imm) :=
  (Mnemonic.match_iff_fields _ .blt).mpr ⟨encodeB_opcode .., encodeB_funct3 ..⟩

theorem Sys2Proof.Laws.EncodeMatchesRow.bge (rs1 rs2 : Reg) (imm : Word) :
    Laws.EncodeMatchesRow.Statement (.bge rs1 rs2 imm) :=
  (Mnemonic.match_iff_fields _ .bge).mpr ⟨encodeB_opcode .., encodeB_funct3 ..⟩

theorem Sys2Proof.Laws.EncodeMatchesRow.bltu (rs1 rs2 : Reg) (imm : Word) :
    Laws.EncodeMatchesRow.Statement (.bltu rs1 rs2 imm) :=
  (Mnemonic.match_iff_fields _ .bltu).mpr ⟨encodeB_opcode .., encodeB_funct3 ..⟩

theorem Sys2Proof.Laws.EncodeMatchesRow.bgeu (rs1 rs2 : Reg) (imm : Word) :
    Laws.EncodeMatchesRow.Statement (.bgeu rs1 rs2 imm) :=
  (Mnemonic.match_iff_fields _ .bgeu).mpr ⟨encodeB_opcode .., encodeB_funct3 ..⟩

theorem Sys2Proof.Laws.EncodeMatchesRow.lb (rd rs1 : Reg) (imm : Word) :
    Laws.EncodeMatchesRow.Statement (.lb rd rs1 imm) :=
  (Mnemonic.match_iff_fields _ .lb).mpr ⟨encodeI_opcode .., encodeI_funct3 ..⟩

theorem Sys2Proof.Laws.EncodeMatchesRow.lh (rd rs1 : Reg) (imm : Word) :
    Laws.EncodeMatchesRow.Statement (.lh rd rs1 imm) :=
  (Mnemonic.match_iff_fields _ .lh).mpr ⟨encodeI_opcode .., encodeI_funct3 ..⟩

theorem Sys2Proof.Laws.EncodeMatchesRow.lw (rd rs1 : Reg) (imm : Word) :
    Laws.EncodeMatchesRow.Statement (.lw rd rs1 imm) :=
  (Mnemonic.match_iff_fields _ .lw).mpr ⟨encodeI_opcode .., encodeI_funct3 ..⟩

theorem Sys2Proof.Laws.EncodeMatchesRow.lbu (rd rs1 : Reg) (imm : Word) :
    Laws.EncodeMatchesRow.Statement (.lbu rd rs1 imm) :=
  (Mnemonic.match_iff_fields _ .lbu).mpr ⟨encodeI_opcode .., encodeI_funct3 ..⟩

theorem Sys2Proof.Laws.EncodeMatchesRow.lhu (rd rs1 : Reg) (imm : Word) :
    Laws.EncodeMatchesRow.Statement (.lhu rd rs1 imm) :=
  (Mnemonic.match_iff_fields _ .lhu).mpr ⟨encodeI_opcode .., encodeI_funct3 ..⟩

theorem Sys2Proof.Laws.EncodeMatchesRow.sb (rs1 rs2 : Reg) (imm : Word) :
    Laws.EncodeMatchesRow.Statement (.sb rs1 rs2 imm) :=
  (Mnemonic.match_iff_fields _ .sb).mpr ⟨encodeS_opcode .., encodeS_funct3 ..⟩

theorem Sys2Proof.Laws.EncodeMatchesRow.sh (rs1 rs2 : Reg) (imm : Word) :
    Laws.EncodeMatchesRow.Statement (.sh rs1 rs2 imm) :=
  (Mnemonic.match_iff_fields _ .sh).mpr ⟨encodeS_opcode .., encodeS_funct3 ..⟩

theorem Sys2Proof.Laws.EncodeMatchesRow.sw (rs1 rs2 : Reg) (imm : Word) :
    Laws.EncodeMatchesRow.Statement (.sw rs1 rs2 imm) :=
  (Mnemonic.match_iff_fields _ .sw).mpr ⟨encodeS_opcode .., encodeS_funct3 ..⟩

theorem Sys2Proof.Laws.EncodeMatchesRow.addi (rd rs1 : Reg) (imm : Word) :
    Laws.EncodeMatchesRow.Statement (.addi rd rs1 imm) :=
  (Mnemonic.match_iff_fields _ .addi).mpr ⟨encodeI_opcode .., encodeI_funct3 ..⟩

theorem Sys2Proof.Laws.EncodeMatchesRow.slti (rd rs1 : Reg) (imm : Word) :
    Laws.EncodeMatchesRow.Statement (.slti rd rs1 imm) :=
  (Mnemonic.match_iff_fields _ .slti).mpr ⟨encodeI_opcode .., encodeI_funct3 ..⟩

theorem Sys2Proof.Laws.EncodeMatchesRow.sltiu (rd rs1 : Reg) (imm : Word) :
    Laws.EncodeMatchesRow.Statement (.sltiu rd rs1 imm) :=
  (Mnemonic.match_iff_fields _ .sltiu).mpr ⟨encodeI_opcode .., encodeI_funct3 ..⟩

theorem Sys2Proof.Laws.EncodeMatchesRow.xori (rd rs1 : Reg) (imm : Word) :
    Laws.EncodeMatchesRow.Statement (.xori rd rs1 imm) :=
  (Mnemonic.match_iff_fields _ .xori).mpr ⟨encodeI_opcode .., encodeI_funct3 ..⟩

theorem Sys2Proof.Laws.EncodeMatchesRow.ori (rd rs1 : Reg) (imm : Word) :
    Laws.EncodeMatchesRow.Statement (.ori rd rs1 imm) :=
  (Mnemonic.match_iff_fields _ .ori).mpr ⟨encodeI_opcode .., encodeI_funct3 ..⟩

theorem Sys2Proof.Laws.EncodeMatchesRow.andi (rd rs1 : Reg) (imm : Word) :
    Laws.EncodeMatchesRow.Statement (.andi rd rs1 imm) :=
  (Mnemonic.match_iff_fields _ .andi).mpr ⟨encodeI_opcode .., encodeI_funct3 ..⟩

theorem Sys2Proof.Laws.EncodeMatchesRow.slli (rd rs1 : Reg) (shamt : BitVec 5) :
    Laws.EncodeMatchesRow.Statement (.slli rd rs1 shamt) :=
  (Mnemonic.match_iff_fields _ .slli).mpr ⟨encodeShift_opcode .., encodeShift_funct3 .., encodeShift_funct7 ..⟩

theorem Sys2Proof.Laws.EncodeMatchesRow.srli (rd rs1 : Reg) (shamt : BitVec 5) :
    Laws.EncodeMatchesRow.Statement (.srli rd rs1 shamt) :=
  (Mnemonic.match_iff_fields _ .srli).mpr ⟨encodeShift_opcode .., encodeShift_funct3 .., encodeShift_funct7 ..⟩

theorem Sys2Proof.Laws.EncodeMatchesRow.srai (rd rs1 : Reg) (shamt : BitVec 5) :
    Laws.EncodeMatchesRow.Statement (.srai rd rs1 shamt) :=
  (Mnemonic.match_iff_fields _ .srai).mpr ⟨encodeShift_opcode .., encodeShift_funct3 .., encodeShift_funct7 ..⟩

theorem Sys2Proof.Laws.EncodeMatchesRow.add (rd rs1 rs2 : Reg) :
    Laws.EncodeMatchesRow.Statement (.add rd rs1 rs2) :=
  (Mnemonic.match_iff_fields _ .add).mpr ⟨encodeR_opcode .., encodeR_funct3 .., encodeR_funct7 ..⟩

theorem Sys2Proof.Laws.EncodeMatchesRow.sub (rd rs1 rs2 : Reg) :
    Laws.EncodeMatchesRow.Statement (.sub rd rs1 rs2) :=
  (Mnemonic.match_iff_fields _ .sub).mpr ⟨encodeR_opcode .., encodeR_funct3 .., encodeR_funct7 ..⟩

theorem Sys2Proof.Laws.EncodeMatchesRow.sll (rd rs1 rs2 : Reg) :
    Laws.EncodeMatchesRow.Statement (.sll rd rs1 rs2) :=
  (Mnemonic.match_iff_fields _ .sll).mpr ⟨encodeR_opcode .., encodeR_funct3 .., encodeR_funct7 ..⟩

theorem Sys2Proof.Laws.EncodeMatchesRow.slt (rd rs1 rs2 : Reg) :
    Laws.EncodeMatchesRow.Statement (.slt rd rs1 rs2) :=
  (Mnemonic.match_iff_fields _ .slt).mpr ⟨encodeR_opcode .., encodeR_funct3 .., encodeR_funct7 ..⟩

theorem Sys2Proof.Laws.EncodeMatchesRow.sltu (rd rs1 rs2 : Reg) :
    Laws.EncodeMatchesRow.Statement (.sltu rd rs1 rs2) :=
  (Mnemonic.match_iff_fields _ .sltu).mpr ⟨encodeR_opcode .., encodeR_funct3 .., encodeR_funct7 ..⟩

theorem Sys2Proof.Laws.EncodeMatchesRow.xor (rd rs1 rs2 : Reg) :
    Laws.EncodeMatchesRow.Statement (.xor rd rs1 rs2) :=
  (Mnemonic.match_iff_fields _ .xor).mpr ⟨encodeR_opcode .., encodeR_funct3 .., encodeR_funct7 ..⟩

theorem Sys2Proof.Laws.EncodeMatchesRow.srl (rd rs1 rs2 : Reg) :
    Laws.EncodeMatchesRow.Statement (.srl rd rs1 rs2) :=
  (Mnemonic.match_iff_fields _ .srl).mpr ⟨encodeR_opcode .., encodeR_funct3 .., encodeR_funct7 ..⟩

theorem Sys2Proof.Laws.EncodeMatchesRow.sra (rd rs1 rs2 : Reg) :
    Laws.EncodeMatchesRow.Statement (.sra rd rs1 rs2) :=
  (Mnemonic.match_iff_fields _ .sra).mpr ⟨encodeR_opcode .., encodeR_funct3 .., encodeR_funct7 ..⟩

theorem Sys2Proof.Laws.EncodeMatchesRow.or (rd rs1 rs2 : Reg) :
    Laws.EncodeMatchesRow.Statement (.or rd rs1 rs2) :=
  (Mnemonic.match_iff_fields _ .or).mpr ⟨encodeR_opcode .., encodeR_funct3 .., encodeR_funct7 ..⟩

theorem Sys2Proof.Laws.EncodeMatchesRow.and (rd rs1 rs2 : Reg) :
    Laws.EncodeMatchesRow.Statement (.and rd rs1 rs2) :=
  (Mnemonic.match_iff_fields _ .and).mpr ⟨encodeR_opcode .., encodeR_funct3 .., encodeR_funct7 ..⟩

theorem Sys2Proof.Laws.EncodeMatchesRow.fence (rd rs1 : Reg) (imm : Word) :
    Laws.EncodeMatchesRow.Statement (.fence rd rs1 imm) :=
  (Mnemonic.match_iff_fields _ .fence).mpr ⟨encodeI_opcode .., encodeI_funct3 ..⟩

theorem Sys2Proof.Laws.EncodeMatchesRow.ecall : Laws.EncodeMatchesRow.Statement .ecall := by
  unfold Laws.EncodeMatchesRow.Statement; decide

theorem Sys2Proof.Laws.EncodeMatchesRow.ebreak : Laws.EncodeMatchesRow.Statement .ebreak := by
  unfold Laws.EncodeMatchesRow.Statement; decide
end

