-- ==== Sys2Proof/Laws/Step.lean ====
section
/-! SUPPORT. Laws/Step.lean: everything a step can do (46_step_sequencer.md R211), said once. -/

namespace Sys2Proof.Machine

/-- The ways a step from s to t can go, in the order of R211. -/
inductive StepCase (s t : State) : Prop where
  /-- STOP. -/
  | stop (hstop : s.stopNow = true) (ht : t = s.sampleStop.enterHalted)
  /-- A fault of the fetch. -/
  | fetchFault (k : FaultKind) (hstop : s.stopNow = false) (hfetch : s.fetch = .error k)
      (ht : t = s.sampleStop.raise k s.pc none)
  /-- HALT. -/
  | halt (w : Word) (hstop : s.stopNow = false) (hfetch : s.fetch = .ok w) (hhalt : s.haltMatches w = true)
      (ht : t = s.sampleStop.enterHalted)
  /-- DecodeError. -/
  | decodeFault (w : Word) (e : DecodeReject) (hstop : s.stopNow = false) (hfetch : s.fetch = .ok w)
      (hhalt : s.haltMatches w = false) (hdecode : decode w = .error e)
      (ht : t = s.sampleStop.raise .decodeError s.pc (some w))
  /-- The instruction. -/
  | execute (w : Word) (i : Instr) (hstop : s.stopNow = false) (hfetch : s.fetch = .ok w)
      (hhalt : s.haltMatches w = false) (hdecode : decode w = .ok i) (hexec : exec i s.sampleStop = .next t)

/-- Inversion of the step: only Running has one, and it goes one of these ways. -/
theorem step_cases {s t : State} (h : step s = .next t) : s.runState = .running ∧ StepCase s t := by
  unfold step sequencerStep at h
  cases hr : s.runState with
  | halted => simp [hr] at h
  | faulted r => simp [hr] at h
  | running =>
    refine ⟨rfl, ?_⟩
    simp only [hr, runningStep] at h
    cases hs : s.stopNow with
    | true =>
      simp only [hs, if_true] at h
      exact .stop hs (Host.Outcome.next.inj h).symm
    | false =>
      simp only [hs, Bool.false_eq_true, if_false, fetchAndRun, State.fetch_sampleStop] at h
      cases hf : s.fetch with
      | error k =>
        simp only [hf] at h
        exact .fetchFault k hs hf (Host.Outcome.next.inj h).symm
      | ok w =>
        simp only [hf, State.haltMatches_sampleStop] at h
        cases hh : s.haltMatches w with
        | true =>
          simp only [hh, if_true] at h
          exact .halt w hs hf hh (Host.Outcome.next.inj h).symm
        | false =>
          simp only [hh, Bool.false_eq_true, if_false, decodeAndExecute] at h
          cases hd : decode w with
          | error e =>
            simp only [hd] at h
            exact .decodeFault w e hs hf hh hd (Host.Outcome.next.inj h).symm
          | ok i =>
            simp only [hd] at h
            exact .execute w i hs hf hh hd h

/-! ### The other direction: what a running step answers -/

theorem step_of_stop {s : State} (hr : s.runState = .running) (hs : s.stopNow = true) :
    step s = .next s.sampleStop.enterHalted := by
  simp [step, sequencerStep, runningStep, hr, hs]

theorem step_of_fetch {s : State} (hr : s.runState = .running) (hs : s.stopNow = false) :
    step s = fetchAndRun s.sampleStop := by
  simp [step, sequencerStep, runningStep, hr, hs]

theorem step_of_fetchError {s : State} {k : FaultKind} (hr : s.runState = .running) (hs : s.stopNow = false)
    (hf : s.fetch = .error k) : step s = .next (s.sampleStop.raise k s.pc none) := by
  simp [step_of_fetch hr hs, fetchAndRun, hf]

theorem step_of_halt {s : State} {w : Word} (hr : s.runState = .running) (hs : s.stopNow = false)
    (hf : s.fetch = .ok w) (hh : s.haltMatches w = true) : step s = .next s.sampleStop.enterHalted := by
  simp [step_of_fetch hr hs, fetchAndRun, hf, hh]

theorem step_of_decode {s : State} {w : Word} (hr : s.runState = .running) (hs : s.stopNow = false)
    (hf : s.fetch = .ok w) (hh : s.haltMatches w = false) : step s = decodeAndExecute s.sampleStop w := by
  simp [step_of_fetch hr hs, fetchAndRun, hf, hh]

/-- The fetch of the claims' terms is the fetch of the machine. -/
theorem fetches_iff (s : State) (w : Word) :
    Fetches s w ↔ s.runState = .running ∧ s.stopNow = false ∧ s.fetch = .ok w := by
  rw [State.fetch_eq_ok, State.loadWord_eq_some]
  constructor
  · rintro ⟨h1, h2, h3, h4, h5⟩
    exact ⟨h1, h2, h3, by omega, fun k hk => (h5 k hk).symm⟩
  · rintro ⟨h1, h2, h3, h4, h5⟩
    exact ⟨h1, h2, h3, by omega, fun k hk => (h5 k hk).symm⟩

end Sys2Proof.Machine
end

