-- ==== Sys2Proof/Tests/Slice0.lean ====
section
/-! SUPPORT. Tests/Slice0.lean: the model's own tests, each on one small state, and a witness for the hypotheses of each
obligation. Expected values come from the vectors of 95_test_vectors.md, named by their ids, or from the rules of the
spec by hand. -/

namespace Sys2Proof.Tests

open Sys2Proof.Machine

/-! ### WellFormed refuses an ill-formed term for each check (30_encoding.md R88, R89) -/

theorem test_wf_refuses_I_above : (Instr.addi 1 2 2048#32).wf = false := by decide
theorem test_wf_refuses_I_below : (Instr.lw 1 2 (-2049)).wf = false := by decide
theorem test_wf_refuses_S_above : (Instr.sw 1 2 0x00000800#32).wf = false := by decide
theorem test_wf_refuses_B_odd : (Instr.beq 1 2 7#32).wf = false := by decide
theorem test_wf_refuses_B_above : (Instr.bne 1 2 4096#32).wf = false := by decide
theorem test_wf_refuses_B_below : (Instr.blt 1 2 (-4098)).wf = false := by decide
theorem test_wf_refuses_U_low_bits : (Instr.lui 1 0x12345001#32).wf = false := by decide
theorem test_wf_refuses_J_odd : (Instr.jal 1 9#32).wf = false := by decide
theorem test_wf_refuses_J_above : (Instr.jal 1 0x00100000#32).wf = false := by decide
theorem test_wf_refuses_J_below : (Instr.jal 1 (-1048578)).wf = false := by decide
theorem test_wf_admits_ends : (Instr.addi 1 2 2047#32).wf = true ∧ (Instr.sb 1 2 (-2048)).wf = true ∧
    (Instr.bgeu 1 2 4094#32).wf = true ∧ (Instr.beq 1 2 (-4096)).wf = true ∧ (Instr.auipc 1 0xFFFFF000#32).wf = true ∧
    (Instr.jal 1 0x000FFFFE#32).wf = true ∧ (Instr.jal 1 0xFFF00000#32).wf = true := by decide

/-! ### Decode: each instruction's word, cut into the fields of R82 to R87 with the selectors of R95 -/

/-- V-UI1, V-UI5. -/
theorem test_decode_upper :
    decodeTableWord 32 0b00010010001101000101_00101_0110111 = some (.lui 5 0x12345000#32) ∧
    decodeTableWord 32 0b00010010001101000101_00101_0010111 = some (.auipc 5 0x12345000#32) := by decide

/-- V-J1, V-DEC13, V-DEC14, V-J5. -/
theorem test_decode_jumps :
    decodeTableWord 32 0b0_0000001000_0_00000000_00001_1101111 = some (.jal 1 16#32) ∧
    decodeTableWord 32 0b1_0000000000_0_00000000_00001_1101111 = some (.jal 1 0xFFF00000#32) ∧
    decodeTableWord 32 0b0_1111111111_1_11111111_00001_1101111 = some (.jal 1 0x000FFFFE#32) ∧
    decodeTableWord 32 0b111111111101_00001_000_00001_1100111 = some (.jalr 1 1 (-3)) := by decide

/-- V-DEC7 to V-DEC12 and the heads of 2.6. -/
theorem test_decode_branches :
    decodeTableWord 32 0b1_000000_00010_00001_000_0000_0_1100011 = some (.beq 1 2 (-4096)) ∧
    decodeTableWord 32 0b0_111111_00010_00001_000_1111_1_1100011 = some (.beq 1 2 4094#32) ∧
    decodeTableWord 32 0b1_111111_00010_00001_001_1110_1_1100011 = some (.bne 1 2 (-4)) ∧
    decodeTableWord 32 0b0_000000_00010_00001_100_1000_0_1100011 = some (.blt 1 2 16#32) ∧
    decodeTableWord 32 0b0_000000_00010_00001_101_1000_0_1100011 = some (.bge 1 2 16#32) ∧
    decodeTableWord 32 0b0_000000_00010_00001_110_1000_0_1100011 = some (.bltu 1 2 16#32) ∧
    decodeTableWord 32 0b0_000000_00010_00001_111_1000_0_1100011 = some (.bgeu 1 2 16#32) := by decide

/-- V-L3, V-L10, V-L16, V-L4, V-L8. -/
theorem test_decode_loads :
    decodeTableWord 32 0b000000000010_00001_000_00011_0000011 = some (.lb 3 1 2#32) ∧
    decodeTableWord 32 0b000000000011_00001_001_00011_0000011 = some (.lh 3 1 3#32) ∧
    decodeTableWord 32 0b111111111100_00001_010_00011_0000011 = some (.lw 3 1 (-4)) ∧
    decodeTableWord 32 0b000000000001_00001_100_00011_0000011 = some (.lbu 3 1 1#32) ∧
    decodeTableWord 32 0b000000000001_00001_101_00011_0000011 = some (.lhu 3 1 1#32) := by decide

/-- V-L41, V-L44, V-DEC4 to V-DEC6. -/
theorem test_decode_stores :
    decodeTableWord 32 0b0000000_00010_00001_000_00111_0100011 = some (.sb 1 2 7#32) ∧
    decodeTableWord 32 0b0000000_00010_00001_001_00011_0100011 = some (.sh 1 2 3#32) ∧
    decodeTableWord 32 0b1111111_00010_00001_010_11100_0100011 = some (.sw 1 2 (-4)) ∧
    decodeTableWord 32 0b0111111_00010_00001_010_11111_0100011 = some (.sw 1 2 2047#32) ∧
    decodeTableWord 32 0b1000000_00010_00001_010_00000_0100011 = some (.sw 1 2 (-2048)) := by decide

/-- V-DEC1 to V-DEC3, V-A35, V-A39, V-A45, V-A46, V-A49. -/
theorem test_decode_immediates :
    decodeTableWord 32 0b111111111101_00101_000_00110_0010011 = some (.addi 6 5 (-3)) ∧
    decodeTableWord 32 0b011111111111_00000_000_00001_0010011 = some (.addi 1 0 2047#32) ∧
    decodeTableWord 32 0b100000000000_00000_000_00001_0010011 = some (.addi 1 0 (-2048)) ∧
    decodeTableWord 32 0b111111111101_00001_010_00011_0010011 = some (.slti 3 1 (-3)) ∧
    decodeTableWord 32 0b111111111111_00001_011_00011_0010011 = some (.sltiu 3 1 (-1)) ∧
    decodeTableWord 32 0b000011110000_00001_100_00011_0010011 = some (.xori 3 1 240#32) ∧
    decodeTableWord 32 0b000000001111_00001_110_00011_0010011 = some (.ori 3 1 15#32) ∧
    decodeTableWord 32 0b011111111111_00001_111_00011_0010011 = some (.andi 3 1 2047#32) := by decide

/-- V-A50, V-A54, V-DEC22. -/
theorem test_decode_shift_immediates :
    decodeTableWord 32 0b0000000_11111_00001_001_00011_0010011 = some (.slli 3 1 31#5) ∧
    decodeTableWord 32 0b0000000_00100_00001_101_00011_0010011 = some (.srli 3 1 4#5) ∧
    decodeTableWord 32 0b0100000_11111_00001_101_00011_0010011 = some (.srai 3 1 31#5) := by decide

/-- the heads of 2.2, E1. -/
theorem test_decode_registers :
    decodeTableWord 32 0b0000000_00010_00001_000_00011_0110011 = some (.add 3 1 2) ∧
    decodeTableWord 32 0b0100000_00010_00001_000_00011_0110011 = some (.sub 3 1 2) ∧
    decodeTableWord 32 0b0000000_00010_00001_001_00011_0110011 = some (.sll 3 1 2) ∧
    decodeTableWord 32 0b0000000_00010_00001_010_00011_0110011 = some (.slt 3 1 2) ∧
    decodeTableWord 32 0b0000000_00010_00001_011_00011_0110011 = some (.sltu 3 1 2) ∧
    decodeTableWord 32 0b0000000_00010_00001_100_00011_0110011 = some (.xor 3 1 2) ∧
    decodeTableWord 32 0b0000000_00010_00001_101_00011_0110011 = some (.srl 3 1 2) ∧
    decodeTableWord 32 0b0100000_00010_00001_101_00011_0110011 = some (.sra 3 1 2) ∧
    decodeTableWord 32 0b0000000_00010_00001_110_00011_0110011 = some (.or 3 1 2) ∧
    decodeTableWord 32 0b0000000_00010_00001_111_00011_0110011 = some (.and 3 1 2) := by decide

/-- V-DEC23, V-Y5, V-Y6, V-Y7. -/
theorem test_decode_system :
    decodeTableWord 32 0b100000110011_00000_000_00000_0001111 = some (.fence 0 0 0xFFFFF833#32) ∧
    decodeTableWord 32 0b111111111111_11111_000_11111_0001111 = some (.fence 31 31 (-1)) ∧
    decodeTableWord 32 0b000000000000_00000_000_00000_1110011 = some (.ecall) ∧
    decodeTableWord 32 0b000000000001_00000_000_00000_1110011 = some (.ebreak) := by decide

/-- V-DEC30 to V-DEC50: the illegal words, 0x02208033 (E1) among them. -/
theorem test_decode_illegal : ∀ w ∈ ([
    0x00000000, 0xFFFFFFFF, 0x00008082, 0x00000011, 0x02208033, 0x4020C1B3, 0x8020D1B3,
    0x40209193, 0x0200D193, 0x0000B003, 0x00003023, 0x0000A063, 0x00009067, 0x0000100F,
    0x00001073, 0x00200073, 0x00100173, 0x30200073, 0x10500073, 0x0000202F, 0x00000007] : List Nat), decodeTableWord 32 w = none := by decide

/-- By name: an unknown opcode, funct3, funct7 and SYSTEM word (V-DEC49, V-DEC39, V-DEC34, V-DEC47), and too few bytes. -/
theorem test_decode_rejects_by_name :
    (match decode 0x0000202F#32 with | .error e => some e | .ok _ => none) = some .unknownOpcode ∧
    (match decode 0x0000B003#32 with | .error e => some e | .ok _ => none) = some .unknownFunct3 ∧
    (match decode 0x02208033#32 with | .error e => some e | .ok _ => none) = some .unknownFunct7 ∧
    (match decode 0x30200073#32 with | .error e => some e | .ok _ => none) = some .unknownSystemWord ∧
    (match decodeBytes [0x13#8, 0#8, 0#8] with | .error e => some e | .ok _ => none) = some .truncated := by decide

/-- The bytes of `addi x5, x0, 10` (E4), lowest address first, with one byte left over. -/
theorem test_decode_bytes :
    (decodeBytes [0x93#8, 0x02#8, 0xA0#8, 0x00#8, 0x77#8]).toOption = some (.addi 5 0 10#32, [0x77#8]) ∧
    encodeBytes (.addi 5 0 10#32) = [0x93#8, 0x02#8, 0xA0#8, 0x00#8] := by decide

/-- E1: decode, then encode, the R-type words. -/
theorem test_encode_reproduces_R : ∀ w ∈ [0x002081B3, 0x402081B3, 0x41FFDFB3, 0x00000033],
    (decodeTableWord 32 w).map (fun i => (encode i).toNat) = some w := by decide

/-- The same for a word of each other format (V-DEC8, V-DEC14, V-DEC6, V-DEC19, V-DEC22). -/
theorem test_encode_reproduces : ∀ w ∈ [0x7E208FE3, 0x7FFFF0EF, 0x8020A023, 0xFFFFF2B7, 0x41F0D193],
    (decodeTableWord 32 w).map (fun i => (encode i).toNat) = some w := by decide

/-! ### Reset (10_state.md R38, R41; the values of notes/assumptions/4.md to 7.md and 27.md) -/

theorem test_reset : State.reset.pc = 0 ∧ State.reset.runState = .running ∧ State.reset.faultRecord = none ∧
    State.reset.memSize = 2 ^ 32 ∧ State.reset.mem = [] ∧ State.reset.halt = [] ∧ State.reset.stop = [] ∧
    ∀ r : Reg, State.reset.readReg r = 0 := by decide

/-- The parameters of P3's second run: 15 words at 0x400, here the first of them, and ENTRY left out. -/
def params : Params := { Params.default with
  memSize := 0x1000, loadBase := 0x400#32, image := Bits.leBytes 4 0x00600513#32,
  regInit := Vector.replicate 31 0xAAAAAAAA#32 }

theorem test_reset_with : (State.resetWith params []).pc = 0x400 ∧
    (State.resetWith params []).readReg 0 = 0 ∧ (State.resetWith params []).readReg 31 = 0xAAAAAAAA ∧
    (State.resetWith params []).mem.read 0x400 = 0x13 ∧ (State.resetWith params []).mem.read 0x402 = 0x60 ∧
    (State.resetWith { params with entry := some 8 } []).pc = 8 ∧ bootReady params = true := by decide

/-! ### One step of each instruction -/

/-- The machine of the vectors: MEM_SIZE 0x1000, the word at 0x100, pc 0x100, the data of 2.5 at 0x200, x3 and the rest
as given. -/
def machine (word : Word) (regs : List (Reg × Word)) : State :=
  let start : State := { State.reset with
    memSize := 0x1000
    pc := 0x100
    mem := Memory.writeBytes (Memory.writeBytes [] 0x100 (Bits.leBytes 4 word)) 0x200
      [0x80, 0xFF, 0x7F, 0x01, 0xEF, 0xBE, 0xAD, 0xDE] }
  regs.foldl (fun s (r, v) => s.writeReg r v) start

/-- The state after an outcome, for an outcome that has one. -/
def next? : Host.Outcome State Fault Refusal → Option State
  | .next t => some t
  | .fault _ | .refused _ => none

/-- A register and the pc after one step. -/
def regAfter (s : State) (r : Reg) : Option (Word × Word) := (next? (step s)).map fun t => (t.readReg r, t.pc)

/-- Bytes of memory and the pc after one step. -/
def bytesAfter (s : State) (a n : Nat) : Option (List Byte × Word) :=
  (next? (step s)).map fun t => (t.mem.readBytes a n, t.pc)

/-- The run state and the pc after one step. -/
def runAfter (s : State) : Option (RunState × Word) := (next? (step s)).map fun t => (t.runState, t.pc)

/-- V-UI2. -/
theorem test_lui : regAfter (machine 0xFFFFF2B7 [(5, 0x1)]) 5 = some (0xFFFFF000, 0x104) := by decide

/-- V-UI10. -/
theorem test_lui_x0 : regAfter (machine 0x12345037 []) 0 = some (0x0, 0x104) := by decide

/-- V-UI6. -/
theorem test_auipc : regAfter (machine 0xFFFFF297 []) 5 = some (0xFFFFF100, 0x104) := by decide

/-- V-A2. -/
theorem test_add_wraps : regAfter (machine 0x002081B3 [(1, 0xFFFFFFFF), (2, 0x1)]) 3 = some (0x0, 0x104) := by decide

/-- V-A23. -/
theorem test_add_x0 : regAfter (machine 0x00208033 [(1, 0x5), (2, 0x7)]) 0 = some (0x0, 0x104) := by decide

/-- V-A5. -/
theorem test_sub : regAfter (machine 0x402081B3 [(1, 0x80000000), (2, 0x1)]) 3 = some (0x7FFFFFFF, 0x104) := by decide

/-- V-A7. -/
theorem test_sub_order : regAfter (machine 0x402081B3 [(1, 0x12345678), (2, 0xF0F0F0F)]) 3 = some (0x3254769, 0x104) := by decide

/-- V-A2. -/
theorem test_slt_signed : regAfter (machine 0x0020A1B3 [(1, 0xFFFFFFFF), (2, 0x1)]) 3 = some (0x1, 0x104) := by decide

/-- V-A3. -/
theorem test_slt_order : regAfter (machine 0x0020A1B3 [(1, 0x7FFFFFFF), (2, 0x1)]) 3 = some (0x0, 0x104) := by decide

/-- V-A2. -/
theorem test_sltu_unsigned : regAfter (machine 0x0020B1B3 [(1, 0xFFFFFFFF), (2, 0x1)]) 3 = some (0x0, 0x104) := by decide

/-- V-A1. -/
theorem test_sltu_order : regAfter (machine 0x0020B1B3 [(1, 0x5), (2, 0x7)]) 3 = some (0x1, 0x104) := by decide

/-- V-A10. -/
theorem test_xor : regAfter (machine 0x0020C1B3 [(1, 0x12345678), (2, 0xF0F0F0F)]) 3 = some (0x1D3B5977, 0x104) := by decide

/-- V-A10. -/
theorem test_or : regAfter (machine 0x0020E1B3 [(1, 0x12345678), (2, 0xF0F0F0F)]) 3 = some (0x1F3F5F7F, 0x104) := by decide

/-- V-A10. -/
theorem test_and : regAfter (machine 0x0020F1B3 [(1, 0x12345678), (2, 0xF0F0F0F)]) 3 = some (0x2040608, 0x104) := by decide

/-- V-A18. -/
theorem test_sll : regAfter (machine 0x002091B3 [(1, 0x12345678), (2, 0xF0F0F0F)]) 3 = some (0x2B3C0000, 0x104) := by decide

/-- V-A19. -/
theorem test_sll_by_32 : regAfter (machine 0x002091B3 [(1, 0x1), (2, 0x20)]) 3 = some (0x1, 0x104) := by decide

/-- V-A15. -/
theorem test_srl : regAfter (machine 0x0020D1B3 [(1, 0x80000000), (2, 0x24)]) 3 = some (0x8000000, 0x104) := by decide

/-- V-A15. -/
theorem test_sra : regAfter (machine 0x4020D1B3 [(1, 0x80000000), (2, 0x24)]) 3 = some (0xF8000000, 0x104) := by decide

/-- V-A30. -/
theorem test_addi_negative : regAfter (machine 0xFFD08193 [(1, 0x5)]) 3 = some (0x2, 0x104) := by decide

/-- V-A31. -/
theorem test_addi_wraps : regAfter (machine 0x00108193 [(1, 0x7FFFFFFF)]) 3 = some (0x80000000, 0x104) := by decide

/-- V-A35. -/
theorem test_slti : regAfter (machine 0xFFD0A193 [(1, 0xFFFFFFFB)]) 3 = some (0x1, 0x104) := by decide

/-- V-A36. -/
theorem test_slti_equal : regAfter (machine 0xFFD0A193 [(1, 0xFFFFFFFD)]) 3 = some (0x0, 0x104) := by decide

/-- V-A39. -/
theorem test_sltiu_extends : regAfter (machine 0xFFF0B193 [(1, 0x0)]) 3 = some (0x1, 0x104) := by decide

/-- V-A42. -/
theorem test_sltiu_equal : regAfter (machine 0x0010B193 [(1, 0x1)]) 3 = some (0x0, 0x104) := by decide

/-- V-A44. -/
theorem test_xori_extends : regAfter (machine 0xFFF0C193 [(1, 0x12345678)]) 3 = some (0xEDCBA987, 0x104) := by decide

/-- V-A47. -/
theorem test_ori_extends : regAfter (machine 0x8000E193 [(1, 0x0)]) 3 = some (0xFFFFF800, 0x104) := by decide

/-- V-A48. -/
theorem test_andi_extends : regAfter (machine 0xF000F193 [(1, 0x12345678)]) 3 = some (0x12345600, 0x104) := by decide

/-- V-A51. -/
theorem test_slli : regAfter (machine 0x00409193 [(1, 0xFFFFFFFF)]) 3 = some (0xFFFFFFF0, 0x104) := by decide

/-- V-A54. -/
theorem test_srli : regAfter (machine 0x0040D193 [(1, 0xFFFFFFFF)]) 3 = some (0xFFFFFFF, 0x104) := by decide

/-- V-A57. -/
theorem test_srai : regAfter (machine 0x4040D193 [(1, 0x80000000)]) 3 = some (0xF8000000, 0x104) := by decide

/-- V-A58. -/
theorem test_srai_positive : regAfter (machine 0x4040D193 [(1, 0x7FFFFFFF)]) 3 = some (0x7FFFFFF, 0x104) := by decide

/-- V-L1. -/
theorem test_lb : regAfter (machine 0x00008183 [(1, 0x200)]) 3 = some (0xFFFFFF80, 0x104) := by decide

/-- V-L17. -/
theorem test_lb_negative_offset : regAfter (machine 0xFFF08183 [(1, 0x201)]) 3 = some (0xFFFFFF80, 0x104) := by decide

/-- V-L4. -/
theorem test_lbu : regAfter (machine 0x0010C183 [(1, 0x200)]) 3 = some (0xFF, 0x104) := by decide

/-- V-L10. -/
theorem test_lh : regAfter (machine 0x00309183 [(1, 0x200)]) 3 = some (0xFFFFEF01, 0x104) := by decide

/-- V-L6. -/
theorem test_lhu : regAfter (machine 0x0000D183 [(1, 0x200)]) 3 = some (0xFF80, 0x104) := by decide

/-- V-L14. -/
theorem test_lw : regAfter (machine 0x0030A183 [(1, 0x200)]) 3 = some (0xADBEEF01, 0x104) := by decide

/-- V-L22. -/
theorem test_lw_into_base : regAfter (machine 0x0000A083 [(1, 0x204)]) 1 = some (0xDEADBEEF, 0x104) := by decide

/-- V-L41. -/
theorem test_sb : bytesAfter (machine 0x002083A3 [(1, 0x200), (2, 0xA1B2C3D4)]) 0x200 8 =
    some ([0x80, 0xFF, 0x7F, 0x01, 0xEF, 0xBE, 0xAD, 0xD4], 0x104) := by decide

/-- V-L44. -/
theorem test_sh : bytesAfter (machine 0x002091A3 [(1, 0x200), (2, 0xA1B2C3D4)]) 0x200 8 =
    some ([0x80, 0xFF, 0x7F, 0xD4, 0xC3, 0xBE, 0xAD, 0xDE], 0x104) := by decide

/-- V-L46. -/
theorem test_sw : bytesAfter (machine 0x0020A0A3 [(1, 0x200), (2, 0xA1B2C3D4)]) 0x200 8 =
    some ([0x80, 0xD4, 0xC3, 0xB2, 0xA1, 0xBE, 0xAD, 0xDE], 0x104) := by decide

/-- V-L52. -/
theorem test_sw_x0 : bytesAfter (machine 0x0000A023 [(1, 0x200), (2, 0xA1B2C3D4)]) 0x200 8 =
    some ([0x00, 0x00, 0x00, 0x00, 0xEF, 0xBE, 0xAD, 0xDE], 0x104) := by decide

/-- V-B1. -/
theorem test_beq_taken : runAfter (machine 0x00208863 [(1, 0x5), (2, 0x5)]) = some (.running, 0x110) := by decide

/-- V-B2. -/
theorem test_beq_not_taken : runAfter (machine 0x00208863 [(1, 0x5), (2, 0x7)]) = some (.running, 0x104) := by decide

/-- V-B1. -/
theorem test_bne_not_taken : runAfter (machine 0x00209863 [(1, 0x5), (2, 0x5)]) = some (.running, 0x104) := by decide

/-- V-B2. -/
theorem test_bne_taken : runAfter (machine 0x00209863 [(1, 0x5), (2, 0x7)]) = some (.running, 0x110) := by decide

/-- V-B4. -/
theorem test_blt_taken : runAfter (machine 0x0020C863 [(1, 0xFFFFFFFF), (2, 0x1)]) = some (.running, 0x110) := by decide

/-- V-B1. -/
theorem test_blt_not_taken : runAfter (machine 0x0020C863 [(1, 0x5), (2, 0x5)]) = some (.running, 0x104) := by decide

/-- V-B4. -/
theorem test_bge_not_taken : runAfter (machine 0x0020D863 [(1, 0xFFFFFFFF), (2, 0x1)]) = some (.running, 0x104) := by decide

/-- V-B1. -/
theorem test_bge_taken : runAfter (machine 0x0020D863 [(1, 0x5), (2, 0x5)]) = some (.running, 0x110) := by decide

/-- V-B4. -/
theorem test_bltu_not_taken : runAfter (machine 0x0020E863 [(1, 0xFFFFFFFF), (2, 0x1)]) = some (.running, 0x104) := by decide

/-- V-B5. -/
theorem test_bltu_taken : runAfter (machine 0x0020E863 [(1, 0x1), (2, 0xFFFFFFFF)]) = some (.running, 0x110) := by decide

/-- V-B4. -/
theorem test_bgeu_taken : runAfter (machine 0x0020F863 [(1, 0xFFFFFFFF), (2, 0x1)]) = some (.running, 0x110) := by decide

/-- V-B5. -/
theorem test_bgeu_not_taken : runAfter (machine 0x0020F863 [(1, 0x1), (2, 0xFFFFFFFF)]) = some (.running, 0x104) := by decide

/-- V-J1. -/
theorem test_jal : regAfter (machine 0x010000EF [(1, 0x77777777)]) 1 = some (0x104, 0x110) := by decide

/-- V-J2. -/
theorem test_jal_x0_back : regAfter (machine 0xFF9FF06F []) 0 = some (0x0, 0xF8) := by decide

/-- V-J5. -/
theorem test_jalr_rd_is_rs1 : regAfter (machine 0xFFD080E7 [(1, 0x207)]) 1 = some (0x104, 0x204) := by decide

/-- V-J15. -/
theorem test_jalr_keeps_bit1 : regAfter (machine 0x000280E7 [(5, 0x202)]) 1 = some (0x104, 0x202) := by decide

/-- V-Y5. -/
theorem test_fence : regAfter (machine 0xFFFF8F8F [(31, 0x101F)]) 31 = some (0x101F, 0x104) := by decide

/-- V-Y6. -/
theorem test_ecall : regAfter (machine 0x00000073 [(1, 0x1001)]) 1 = some (0x1001, 0x104) := by decide

/-- V-Y7. -/
theorem test_ebreak : regAfter (machine 0x00100073 [(1, 0x1001)]) 1 = some (0x1001, 0x104) := by decide

/-! ### Faults, STOP and HALT (2.9) -/

/-- V-L31: a load that reaches one byte beyond the end. -/
theorem test_lh_out_of_bounds : runAfter (machine 0x00009183 [(1, 0xFFF)]) =
    some (.faulted ⟨.outOfBounds, 0x100, 0xFFF, some 0x00009183⟩, 0x100) := by decide

/-- V-L62: a store that straddles the end writes none of its bytes. -/
theorem test_sw_out_of_bounds : bytesAfter (machine 0x0020A023 [(1, 0xFFD), (2, 0xA1B2C3D4)]) 0xFFD 3 =
    some ([0, 0, 0], 0x100) ∧ runAfter (machine 0x0020A023 [(1, 0xFFD), (2, 0xA1B2C3D4)]) =
    some (.faulted ⟨.outOfBounds, 0x100, 0xFFD, some 0x0020A023⟩, 0x100) := by decide

/-- V-DEC47: MRET is an illegal word. -/
theorem test_illegal_word : runAfter (machine 0x30200073 []) =
    some (.faulted ⟨.decodeError, 0x100, 0x100, some 0x30200073⟩, 0x100) := by decide

/-- V-T6: misaligned and out of bounds gives MisalignedFetch. -/
theorem test_misaligned_fetch : runAfter { machine 0 [] with pc := 0x1001 } =
    some (.faulted ⟨.misalignedFetch, 0x1001, 0x1001, none⟩, 0x1001) := by decide

/-- V-T9: a fetch that straddles the end. -/
theorem test_fetch_straddles : runAfter { machine 0 [] with pc := 0x1000, memSize := 0x1002 } =
    some (.faulted ⟨.outOfBounds, 0x1000, 0x1000, none⟩, 0x1000) := by decide

/-- V-T11: STOP comes before every check. -/
theorem test_stop_first : runAfter { machine 0 [] with pc := 0x102, stop := [true] } = some (.halted, 0x102) := by
  decide

/-- The pattern that holds of a word. -/
def haltOnWord (w : Word) : HaltPattern := ⟨0, 0, 0xFFFFFFFF, w⟩

/-- V-T4: HALT comes before Decode. -/
theorem test_halt_before_decode : runAfter { machine 0 [] with halt := [haltOnWord 0] } = some (.halted, 0x100) := by
  decide

/-- V-T12: HALT comes after the fetch. -/
theorem test_halt_after_fetch : runAfter { machine 0 [] with pc := 0x102, halt := [⟨0, 0, 0, 0⟩] } =
    some (.faulted ⟨.misalignedFetch, 0x102, 0x102, none⟩, 0x102) := by decide

/-- V-T14: the pc wraps at the end of a full memory. -/
theorem test_pc_wraps : runAfter (({ State.reset with pc := 0xFFFFFFFC }).withFetchWord 32 0x00000013) =
    some (.running, 0) := by decide

/-! ### Inspection (10_state.md R42) -/

/-- The current instruction is `MemRead(pc, 4)` whatever the alignment: the bytes of V-L14, and none beyond the end. -/
theorem test_current_has_no_alignment_check :
    State.current { machine 0 [] with pc := 0x203 } = some (0xADBEEF01, 0x203) ∧
    State.current { machine 0 [] with pc := 0xFFD } = none := by decide

/-! ### Assembler (30_encoding.md R106, R107) -/

theorem test_asm : Assembler.asm (.sw 1 2 (-4)) = some "sw x2, -4(x1)" ∧
    Assembler.asm (.lui 5 0x12345000#32) = some "lui x5, 74565" ∧
    Assembler.asm (.fence 0 0 0xFF#32) = some "fence iorw, iorw" ∧ Assembler.regAlias 10 = "a0" := by decide

/-- The split of a constant whose low part is negative, and the two short forms. -/
theorem test_li : Assembler.expand (.li 1 0x12345FFF#32) = [.lui 1 0x12346000#32, .addi 1 1 (-1)] ∧
    Assembler.expand (.li 1 0x12345000#32) = [.lui 1 0x12345000#32] ∧
    Assembler.expand (.li 1 (-7)) = [.addi 1 0 (-7)] := by decide

/-! ### Witnesses: for each obligation with hypotheses, a state and operands that meet them all -/

/-- A step that answers a state. -/
theorem step_next {s : State} {t : State} (h : next? (step s) = some t) : step s = .next t := by
  cases hs : step s <;> simp_all [next?]

/-- The state after one step, for the witnesses whose step is known to answer one. -/
def after (s : State) : State := (next? (step s)).getD s

theorem step_after {s : State} (h : (next? (step s)).isSome = true) : step s = .next (after s) := by
  obtain ⟨t, ht⟩ := Option.isSome_iff_exists.mp h
  rw [step_next ht, after, ht, Option.getD_some]

theorem exec_next {i : Instr} {s t : State} (h : next? (exec i s) = some t) : exec i s = .next t := by
  cases hs : exec i s <;> simp_all [next?]

/-- `addi x5, x0, 10` at 0x100. -/
def addiMachine : State := machine 0x00A00293 []

/-- `sw x2, 0(x1)` over the word at 0x104: the next fetch reads it. -/
def swMachine : State := machine 0x0020A023 [(1, 0x104), (2, 0x00A00293)]

theorem addiMachine_fetches : Fetches addiMachine 0x00A00293 := ⟨by decide, by decide, by decide, by decide, by decide⟩

theorem witness_DecodeInvertsEncode : (Instr.beq 1 2 (-4096)).wf = true ∧ (Instr.ecall).wf = true := by decide

theorem witness_ReencodingReproducesTheWord : (decode 0x7FFFF0EF#32).toOption = some (.jal 1 0x000FFFFE#32) := by decide

theorem witness_ImmediatesAreTheStatedBits : decode 0x800000EF#32 = .ok (.jal 1 0xFFF00000#32) := rfl

/-- A word of each format. -/
theorem witness_DecodedFieldsAreTheWordsBits :
    decode 0x002081B3#32 = .ok (.add 3 1 2) ∧ (Instr.add 3 1 2).mnemonic.format = .R ∧
    decode 0x41F0D193#32 = .ok (.srai 3 1 31) ∧ (Instr.srai 3 1 31).mnemonic.format = .I ∧
    decode 0xFE20AE23#32 = .ok (.sw 1 2 (-4)) ∧ (Instr.sw 1 2 (-4)).mnemonic.format = .S ∧
    decode 0x80208063#32 = .ok (.beq 1 2 (-4096)) ∧ (Instr.beq 1 2 (-4096)).mnemonic.format = .B ∧
    decode 0x800002B7#32 = .ok (.lui 5 0x80000000#32) ∧ (Instr.lui 5 0x80000000#32).mnemonic.format = .U ∧
    decode 0xFF9FF06F#32 = .ok (.jal 0 (-8)) ∧ (Instr.jal 0 (-8)).mnemonic.format = .J :=
  ⟨rfl, rfl, rfl, rfl, rfl, rfl, rfl, rfl, rfl, rfl, rfl, rfl⟩

theorem witness_RowsSelectByMaskAndMatch :
    0x40000033#32 &&& Mnemonic.mask .sub = Mnemonic.matchWord .sub ∧
    0x00100073#32 &&& Mnemonic.mask .ebreak = Mnemonic.matchWord .ebreak := by decide

/-- A word of each class of R100, each class at the edge of a legal one. -/
theorem witness_WordsOutsideTheTableAreIllegal :
    (0x00008082#32).toNat % 4 ≠ 3 ∧ Bits.opcode 0x0000202F#32 = 0x2F#7 ∧
    (Bits.opcode 0x02208033#32 = 0x33#7 ∧ Bits.funct7 0x02208033#32 = 1#7) ∧
    (Bits.opcode 0x4020C1B3#32 = 0x33#7 ∧ Bits.funct7 0x4020C1B3#32 = 0x20#7 ∧ Bits.funct3 0x4020C1B3#32 = 4#3) ∧
    (Bits.opcode 0x40209193#32 = 0x13#7 ∧ Bits.funct3 0x40209193#32 = 1#3 ∧ Bits.funct7 0x40209193#32 = 0x20#7) ∧
    (Bits.opcode 0x0200D193#32 = 0x13#7 ∧ Bits.funct3 0x0200D193#32 = 5#3 ∧ Bits.funct7 0x0200D193#32 = 1#7) ∧
    (Bits.opcode 0x0000A063#32 = 0x63#7 ∧ Bits.funct3 0x0000A063#32 = 2#3) ∧
    (Bits.opcode 0x0000B003#32 = 0x03#7 ∧ Bits.funct3 0x0000B003#32 = 3#3) ∧
    (Bits.opcode 0x00003023#32 = 0x23#7 ∧ Bits.funct3 0x00003023#32 = 3#3) ∧
    (Bits.opcode 0x00009067#32 = 0x67#7 ∧ Bits.funct3 0x00009067#32 = 1#3) ∧
    (Bits.opcode 0x0000100F#32 = 0x0F#7 ∧ Bits.funct3 0x0000100F#32 = 1#3) ∧
    (Bits.opcode 0x00200073#32 = 0x73#7 ∧ 0x00200073#32 ≠ 0x00000073#32 ∧ 0x00200073#32 ≠ 0x00100073#32) := by decide

/-- No row holds of the word 0. -/
theorem witness_word_of_no_row : ∀ m : Mnemonic, 0#32 &&& m.mask ≠ m.matchWord := by
  intro m; cases m <;> decide

theorem witness_RegisterFileReadsAndWrites : (31 : Reg) ≠ 0 ∧ (1 : Reg) ≠ 31 := by decide

/-- Both cases of ENTRY. -/
theorem witness_ResetStartsRunningAtTheEntry : params.entry = none ∧ { params with entry := some 8 }.entry = some 8 := by
  decide

/-- Parameters with an image whose first and last bytes are in memory, at its very end. -/
theorem witness_ResetTakesTheParameters :
    Params.wf { params with loadBase := 0xFFC } ∧ (31 : Reg) ≠ 0 ∧
    (0xFFC ≤ 0xFFF ∧ 0xFFF < 0xFFC + params.image.length) ∧ 0xFFF < params.memSize ∧
    ¬ (0xFFC ≤ 0xFFB ∧ 0xFFB < 0xFFC + params.image.length) := by decide

theorem witness_ResetMeetsTheInvariants : Params.wf params ∧ (entryAddress params).toNat % 2 = 0 := by decide

theorem witness_StepKeepsMemoryCanonical : MemoryInv swMachine ∧ step swMachine = .next (after swMachine) :=
  ⟨by decide, step_after (by decide)⟩

/-- A taken branch to 0x102 (V-B15): the pc is 2 modulo 4 after it. -/
theorem witness_StepKeepsThePcEven : EvenPc (machine 0x00000163 []) ∧
    step (machine 0x00000163 []) = .next (after (machine 0x00000163 [])) ∧
    (after (machine 0x00000163 [])).pc.toNat % 4 ≠ 0 := ⟨by decide, step_after (by decide), by decide⟩

/-- The last access in bounds and the first out of bounds, and a memory of no byte. -/
theorem witness_BoundsCheckCoversTheWholeAccess :
    ((machine 0 []).memRead 0xFFC 4).isSome ∧ ((machine 0 []).memRead 0xFFD 4) = none ∧
    ((machine 0 []).memWrite 0xFFE [1, 2]).isSome ∧ ((machine 0 []).memWrite 0xFFF [1, 2]) = none ∧
    { machine 0 [] with memSize := 0 }.memSize = 0 := by decide

/-- The bytes of 2.5 read as a byte, a half and a word (V-L1, V-L5, V-L11), the highest accesses, and none above. -/
theorem witness_MemReadIsLittleEndian :
    (machine 0 []).loadByte 0x200 = some 0x80 ∧ (machine 0 []).loadHalf 0x200 = some 0xFF80 ∧
    (machine 0 []).loadWord 0x200 = some 0x017FFF80 ∧ (machine 0 []).loadByte 0xFFF = some 0 ∧
    (machine 0 []).loadByte 0x1000 = none ∧ (machine 0 []).loadHalf 0xFFF = none ∧
    (machine 0 []).loadWord 0xFFD = none := by decide

/-- Each width, in bounds at the last address and out of bounds by one. -/
theorem witness_MemWriteStoresExactlyItsBytes : (machine 0 []).mem.wf ∧ (machine 0 []).memSize = 0x1000 ∧
    ((machine 0 []).storeByte 0xFFF 0xD4).isSome ∧ (machine 0 []).storeByte 0x1000 0xD4 = none ∧
    ((machine 0 []).storeHalf 0xFFE 0xC3D4).isSome ∧ (machine 0 []).storeHalf 0xFFF 0xC3D4 = none ∧
    ((machine 0 []).storeWord 0xFFC 0xA1B2C3D4).isSome ∧ (machine 0 []).storeWord 0xFFD 0xA1B2C3D4 = none := by decide

theorem witness_StoreThenLoadReturnsTheValue : (machine 0 []).mem.wf ∧
    ((machine 0 []).storeByte 0xFFF 0xD4).isSome ∧ ((machine 0 []).storeHalf 0x201 0xC3D4).isSome ∧
    ((machine 0 []).storeWord 0x201 0xA1B2C3D4).isSome := by decide

theorem witness_NarrowReadsSeeTheStoredWord : MemoryInv { machine 0 [] with pc := 0xFFC } ∧
    (State.storeWord { machine 0 [] with pc := 0xFFC } 0xFFC 0xA1B2C3D4).isSome ∧ (0xFFC#32).toNat % 4 = 0 ∧
    MemoryInv State.reset ∧ (State.storeWord State.reset 0xFFFFFFFC 1).isSome := by decide

theorem witness_CanonicalMemoriesWithEqualBytesAreEqual :
    Memory.wf (Memory.write [(3, 7)] 3 0) ∧ Memory.wf [] ∧ Memory.write [(3, 7)] 3 0 = [] := by decide

/-- V-DEC37 and V-DEC38. -/
theorem witness_ShiftResults :
    (Bits.opcode 0x40209193#32 = 0x13#7 ∧ Bits.funct3 0x40209193#32 = 1#3 ∧ Bits.funct7 0x40209193#32 ≠ 0#7) ∧
    (Bits.opcode 0x0200D193#32 = 0x13#7 ∧ Bits.funct3 0x0200D193#32 = 5#3 ∧ Bits.funct7 0x0200D193#32 ≠ 0#7 ∧
      Bits.funct7 0x0200D193#32 ≠ 0x20#7) := by decide

/-- Loads in bounds at the last address of each width, and out of bounds by one. -/
theorem witness_LoadResults :
    (0xFFF = (((machine 0 [(1, 0x1000)]).readReg 1).toNat + (0xFFFFFFFF#32).toNat) % 2 ^ 32 ∧
      0xFFF < (machine 0 [(1, 0x1000)]).memSize ∧ (machine 0 [(1, 0x1000)]).memSize ≤ 0xFFF + 2 - 1) ∧
    (0xFFE = (((machine 0 [(1, 0xFFE)]).readReg 1).toNat + (0#32).toNat) % 2 ^ 32 ∧
      0xFFE + 1 < (machine 0 [(1, 0xFFE)]).memSize ∧ (machine 0 [(1, 0xFFE)]).memSize ≤ 0xFFE + 4 - 1) ∧
    (0xFFC = (((machine 0 [(1, 0xFFD)]).readReg 1).toNat + (0xFFFFFFFF#32).toNat) % 2 ^ 32 ∧
      0xFFC + 3 < (machine 0 [(1, 0xFFD)]).memSize) ∧
    (0x1000 = (((machine 0 [(1, 0x1000)]).readReg 1).toNat + (0#32).toNat) % 2 ^ 32 ∧
      (machine 0 [(1, 0x1000)]).memSize ≤ 0x1000 + 1 - 1) := by decide

theorem witness_StoreResults : (machine 0 [(1, 0xFFC)]).mem.wf ∧
    ((machine 0 [(1, 0xFFC)]).effectiveAddress 1 0).toNat + 4 - 1 < (machine 0 [(1, 0xFFC)]).memSize ∧
    (machine 0 [(1, 0xFFD)]).memSize ≤ ((machine 0 [(1, 0xFFD)]).effectiveAddress 1 0).toNat + 4 - 1 ∧
    (machine 0 [(1, 0xFFF)]).memSize ≤ ((machine 0 [(1, 0xFFF)]).effectiveAddress 1 0).toNat + 2 - 1 ∧
    (machine 0 [(1, 0x1000)]).memSize ≤ ((machine 0 [(1, 0x1000)]).effectiveAddress 1 0).toNat + 1 - 1 := by decide

/-- V-J7 with a link (misaligned) and V-J9 (out of bounds). -/
theorem witness_BadTargetsFaultAtTheNextFetch :
    exec (.jal 1 2) (machine 0 []) = .next ((machine 0 []).writeReg 1 0x104 |>.jumpTo 0x102) ∧
    (machine 0 []).runState = .running ∧ State.stopNow ((machine 0 []).writeReg 1 0x104 |>.jumpTo 0x102) = false ∧
    (0x102#32).toNat % 4 ≠ 0 ∧
    exec (.jal 1 (-260)) (machine 0 []) = .next ((machine 0 []).writeReg 1 0x104 |>.jumpTo 0xFFFFFFFC) ∧
    (0xFFFFFFFC#32).toNat % 4 = 0 ∧ (machine 0 []).memSize ≤ (0xFFFFFFFC#32).toNat + 3 :=
  ⟨exec_next (by decide), by decide, by decide, by decide, exec_next (by decide), by decide, by decide⟩

/-- A store and a register outside its effect, and a load that faults. -/
theorem witness_EffectsAreConfined : (next? (exec (.sw 1 2 0) swMachine)).isSome ∧
    dataAccess swMachine (.sw 1 2 0) = some (0x104, 4) ∧ isStore (.sw 1 2 0) = true ∧ (0x103 < 0x104) ∧
    (Instr.sw 1 2 0).rd ≠ some 31 ∧
    (next? (exec (.lw 3 1 0) (machine 0 [(1, 0x1000)]))).map State.runState =
      some (.faulted ⟨.outOfBounds, 0x100, 0x1000, some 0⟩) := by decide

/-- Each clause: an ordinary instruction, a branch taken and one not taken, JAL, JALR, and a step that faults. -/
theorem witness_PcTakesOneNextValue :
    (next? (exec (.add 1 2 3) addiMachine)).map State.runState = some .running ∧
    (next? (exec (.beq 0 0 16) addiMachine)).map State.runState = some .running ∧
    branchTaken addiMachine (.beq 0 0 16) = some true ∧
    (next? (exec (.bne 0 0 16) addiMachine)).map State.runState = some .running ∧
    branchTaken addiMachine (.bne 0 0 16) = some false ∧
    (next? (exec (.jal 1 16) addiMachine)).map State.runState = some .running ∧
    (next? (exec (.jalr 1 5 0) addiMachine)).map State.runState = some .running ∧
    (next? (step (machine 0 []))).map State.runState = some (.faulted ⟨.decodeError, 0x100, 0x100, some 0⟩) := by decide

theorem witness_StepRunsTheDecodedInstruction : Fetches addiMachine 0x00A00293 ∧
    addiMachine.haltMatches 0x00A00293 = false ∧ decode 0x00A00293#32 = .ok (.addi 5 0 10) :=
  ⟨addiMachine_fetches, by decide, rfl⟩

/-- The highest fetchable pc. -/
theorem witness_PlacedWordRunsNext : (State.mem { machine 0 [] with pc := 0xFFC }).wf ∧
    State.runState { machine 0 [] with pc := 0xFFC } = .running ∧
    State.stopNow { machine 0 [] with pc := 0xFFC } = false ∧ (0xFFC#32).toNat % 4 = 0 ∧
    (0xFFC#32).toNat + 3 < (machine 0 []).memSize ∧ decodeTableWord 32 0x00A00293 = some (.addi 5 0 10) ∧
    State.haltMatches { machine 0 [] with pc := 0xFFC } (BitVec.ofNat 32 (0x00A00293 % 2 ^ 32)) = false := by decide

theorem witness_StopHaltsBeforeTheFetch : { addiMachine with stop := [true, false] }.runState = .running ∧
    { addiMachine with stop := [true, false] }.stop = true :: [false] := by decide

/-- A budget of one step. -/
theorem witness_StopGivesAStepBudget : { addiMachine with stop := [false, true] }.stop = List.replicate 1 false ++ [true] ∧
    Reaches 1 { addiMachine with stop := [false, true] } (after { addiMachine with stop := [false, true] }) ∧
    (after { addiMachine with stop := [false, true] }).runState = .running := by
  refine ⟨by decide, ?_, by decide⟩
  have h : core.step { addiMachine with stop := [false, true] } = _ :=
    step_after (s := { addiMachine with stop := [false, true] }) (by decide)
  simp only [Reaches, Host.Core.run, h]

/-- Each clause: a pattern that holds, no pattern with a step, and an unfetchable pc of each kind. -/
theorem witness_HaltPatternStopsBeforeDecode :
    Fetches { addiMachine with halt := [haltOnWord 0x00A00293] } 0x00A00293 ∧
    (0x00A00293#32 &&& (haltOnWord 0x00A00293).wordMask = (haltOnWord 0x00A00293).wordValue) ∧
    addiMachine.halt = [] ∧ addiMachine.stopNow = false ∧ step addiMachine = .next (after addiMachine) ∧
    (0x102#32).toNat % 4 ≠ 0 ∧ (machine 0 []).memSize ≤ (0x1000#32).toNat + 3 :=
  ⟨⟨by decide, by decide, by decide, by decide, by decide⟩, by decide, by decide, by decide, step_after (by decide),
    by decide, by decide⟩

/-- Each clause: a misaligned pc, a jump that makes one (V-J7), and an instruction that faults. -/
theorem witness_MisalignedFetchComesFromTheFetch :
    { machine 0 [] with pc := 0x102 }.runState = .running ∧ { machine 0 [] with pc := 0x102 }.pc.toNat % 4 ≠ 0 ∧
    (machine 0x0020006F []).pc.toNat % 4 = 0 ∧ step (machine 0x0020006F []) = .next (after (machine 0x0020006F [])) ∧
    (after (machine 0x0020006F [])).pc.toNat % 4 ≠ 0 ∧
    (next? (exec (.lb 3 0 (-1)) addiMachine)).map State.runState =
      some (.faulted ⟨.outOfBounds, 0x100, 0xFFFFFFFF, some 0x00A00293⟩) :=
  ⟨by decide, by decide, by decide, step_after (by decide), by decide, by decide⟩

/-- The first pc whose word is not below MEM_SIZE, for a capacity that is a multiple of 4 and for one that is not. -/
theorem witness_OutOfBoundsFetchFaults : { machine 0 [] with pc := 0x1000 }.runState = .running ∧
    { machine 0 [] with pc := 0x1000 }.stopNow = false ∧ (0x1000#32).toNat % 4 = 0 ∧
    { machine 0 [] with pc := 0x1000, memSize := 0x1003 }.memSize ≤ (0x1000#32).toNat + 3 := by decide

theorem witness_IllegalWordFaults : Fetches (machine 0 []) 0 ∧ (machine 0 []).haltMatches 0 = false ∧
    ∀ m : Mnemonic, 0#32 &&& m.mask ≠ m.matchWord :=
  ⟨⟨by decide, by decide, by decide, by decide, by decide⟩, by decide, witness_word_of_no_row⟩

theorem witness_OutOfBoundsAccessFaults : Fetches (machine 0x0000A003 [(1, 0xFFD)]) 0x0000A003 ∧
    decode 0x0000A003#32 = .ok (.lw 0 1 0) ∧
    dataAccess (machine 0x0000A003 [(1, 0xFFD)]) (.lw 0 1 0) = some (0xFFD, 4) ∧
    (machine 0x0000A003 [(1, 0xFFD)]).haltMatches 0x0000A003 = false ∧
    (machine 0x0000A003 [(1, 0xFFD)]).memSize ≤ (0xFFD#32).toNat + 4 - 1 :=
  ⟨⟨by decide, by decide, by decide, by decide, by decide⟩, rfl, by decide, by decide, by decide⟩

/-- A step that faults (the four rows have theirs above) and a step that does not. -/
theorem witness_FaultsAreExactlyTheTable : (machine 0 []).runState = .running ∧
    step (machine 0 []) = .next (after (machine 0 [])) ∧
    (after (machine 0 [])).runState = .faulted ⟨.decodeError, 0x100, 0x100, some 0⟩ ∧
    step addiMachine = .next (after addiMachine) ∧ (after addiMachine).runState = .running :=
  ⟨by decide, step_after (by decide), by decide, step_after (by decide), by decide⟩

theorem witness_UnsupportedInstructionIsNeverRaised : step (machine 0 []) = .next (after (machine 0 [])) ∧
    (after (machine 0 [])).runState = .faulted ⟨.decodeError, 0x100, 0x100, some 0⟩ :=
  ⟨step_after (by decide), by decide⟩

/-- A step that commits, one that faults, one that halts. -/
theorem witness_StepIsAtomic : step swMachine = .next (after swMachine) ∧
    step (machine 0 []) = .next (after (machine 0 [])) ∧
    step { addiMachine with stop := [true] } = .next (after { addiMachine with stop := [true] }) :=
  ⟨step_after (by decide), step_after (by decide), step_after (by decide)⟩

theorem witness_NoStepAfterTheEnd : addiMachine.enterHalted.runState = .halted ∧ addiMachine.enterHalted.runState ≠ .running ∧
    (addiMachine.raise .decodeError 0 none).runState = .faulted ⟨.decodeError, 0x100, 0, none⟩ := by decide

theorem witness_ParametersStayAndStopIsTaken : step addiMachine = .next (after addiMachine) ∧
    Reaches 1 addiMachine (after addiMachine) := by
  have h : core.step addiMachine = _ := step_after (s := addiMachine) (by decide)
  exact ⟨h, by simp only [Reaches, Host.Core.run, h]⟩

theorem witness_StoreIsSeenByTheNextFetch : swMachine.mem.wf ∧ Fetches swMachine 0x0020A023 ∧
    swMachine.haltMatches 0x0020A023 = false ∧ decode 0x0020A023#32 = .ok (.sw 1 2 0) ∧
    (swMachine.effectiveAddress 1 0).toNat % 4 = 0 ∧ (swMachine.effectiveAddress 1 0).toNat + 3 < swMachine.memSize ∧
    step swMachine = .next (after swMachine) :=
  ⟨by decide, ⟨by decide, by decide, by decide, by decide, by decide⟩, by decide, rfl, by decide, by decide,
    step_after (by decide)⟩

theorem witness_FaultReportGivesRecordAndRegisters : step (machine 0 [(1, 7)]) = .next (after (machine 0 [(1, 7)])) ∧
    (after (machine 0 [(1, 7)])).runState = .faulted ⟨.decodeError, 0x100, 0x100, some 0⟩ ∧
    (after (machine 0 [(1, 7)])).faultReport.map (fun r => r.registers[1]) = some 7 ∧
    addiMachine.enterHalted.runState = .halted := ⟨step_after (by decide), by decide, by decide, by decide⟩

theorem witness_LiAndLaBuildTheirValue : (1 : Reg) ≠ 0 := by decide

/-- A state written over and back, which reads like the first. -/
def rewritten : State := { addiMachine with mem := (addiMachine.mem.write 0x300 1).write 0x300 0 }

/-- A misaligned pc with its word, the last pc that has one and the first that has none; and two states that read
alike. -/
theorem witness_InspectionReadsTheWholeState :
    (WordAt { machine 0 [] with pc := 0x203 } 0x203 0xADBEEF01 ∧ 0x203 + 3 < (machine 0 []).memSize) ∧
    (WordAt { machine 0 [] with pc := 0xFFC } 0xFFC 0 ∧ 0xFFC + 3 < (machine 0 []).memSize) ∧
    (machine 0 []).memSize ≤ 0xFFD + 3 ∧
    MemoryInv addiMachine ∧ MemoryInv rewritten ∧ SameInputs addiMachine rewritten ∧
    rewritten.registers = addiMachine.registers ∧ rewritten.pc = addiMachine.pc ∧
    (∀ a, rewritten.byteAt a = addiMachine.byteAt a) ∧ rewritten.runState = addiMachine.runState := by
  have h : rewritten = addiMachine := by decide
  rw [h]
  exact ⟨by decide, by decide, by decide, by decide, by decide, by decide, rfl, rfl, fun _ => rfl, rfl⟩

end Sys2Proof.Tests
end

section
/-! The registers, reset, the pc and the fault report (10_state.md). -/

namespace Sys2Proof.Machine

/-! ### Reset -/

theorem entryAddress_of_some {p : Params} {e : Word} (h : p.entry = some e) : entryAddress p = e := by
  simp [entryAddress, h]

theorem entryAddress_of_none {p : Params} (h : p.entry = none) : entryAddress p = p.loadBase := by
  simp [entryAddress, h]

/-! ### The fault report (R43) -/

@[simp] theorem State.registers_getElem (s : State) (i : Reg) : s.registers[i.val] = s.readReg i := by
  simp [State.registers]

theorem State.faultReport_of_faulted {s : State} {r : FaultRecord} (h : s.runState = .faulted r) :
    s.faultReport = some ⟨r, s.registers⟩ := by
  simp [State.faultReport, (s.faultRecord_eq_some r).mpr h]

theorem State.faultReport_eq_none {s : State} (h : ∀ r, s.runState ≠ .faulted r) : s.faultReport = none := by
  simpa [State.faultReport, Option.eq_none_iff_forall_ne_some, State.faultRecord_eq_some] using h

/-! ### A step that stops the machine changes nothing but the run state -/

/-- Only a data fault takes an instruction out of Running. -/
theorem exec_stop_onlyRunState {i : Instr} {s t : State} (h : exec i s = .next t) (hs : s.runState = .running)
    (ht : t.runState ≠ .running) : OnlyRunState s t t.runState := by
  rcases exec_runState h with ⟨hkeep, -⟩ | ⟨ea, _, _, _, _, rfl⟩
  · exact absurd (hkeep.trans hs) ht
  · exact s.dataFault_only ea

/-- Halting and faulting are precise (D12): only the run state changes, whichever part of the step stopped it. -/
theorem step_stop_onlyRunState {s t : State} (h : step s = .next t) (ht : t.runState ≠ .running) :
    OnlyRunState s t t.runState := by
  obtain ⟨hrun, hcase⟩ := step_cases h
  cases hcase with
  | stop _ ht' | halt _ _ _ _ ht' | fetchFault _ _ _ ht' | decodeFault _ _ _ _ _ _ ht' =>
    subst ht'; exact ⟨rfl, fun _ => rfl, rfl, fun _ => rfl, rfl, rfl⟩
  | execute _ _ _ _ _ _ hexec =>
    obtain ⟨hstate, hregs, hpc, hmem, hparams⟩ := exec_stop_onlyRunState hexec hrun ht
    exact ⟨hstate, hregs, hpc, hmem, hparams⟩

/-! ### The next pc of an instruction (R27) -/

theorem mem_jumps_and_branches_of_format_B {m : Mnemonic} (h : m.format = .B) :
    m ∈ [.jal, .jalr, .beq, .bne, .blt, .bge, .bltu, .bgeu] := by
  cases m <;> simp [Mnemonic.format] at h ⊢

theorem dataAccess_of_format_B (s : State) {i : Instr} (h : i.mnemonic.format = .B) : dataAccess s i = none := by
  cases i <;> simp [Instr.mnemonic, Mnemonic.format] at h <;> rfl

/-- An instruction that is no branch and no jump, and does not fault, goes to pc + 4. -/
theorem exec_pc_sequential {i : Instr} {s t : State} (h : exec i s = .next t) (ht : t.runState = .running)
    (hi : i.mnemonic ∉ [.jal, .jalr, .beq, .bne, .blt, .bge, .bltu, .bgeu]) : t.pc = s.pc + 4 := by
  cases exec_cases h with
  | result _ _ _ _ _ _ _ ht' | store _ _ _ _ _ ht' | noop _ ht' => simp [ht', State.nextPc]
  | jal _ _ hjal => simp [hjal, Instr.mnemonic] at hi
  | jalr _ _ _ hjalr => simp [hjalr, Instr.mnemonic] at hi
  | branch _ _ hB => exact absurd (mem_jumps_and_branches_of_format_B hB) hi
  | fault _ _ _ _ _ ht' => simp [ht', State.dataFault] at ht

/-- A branch goes to pc + imm when its relation holds, else to pc + 4. -/
theorem exec_pc_branch {i : Instr} {s t : State} (h : exec i s = .next t) (hB : i.mnemonic.format = .B) :
    ∃ imm taken, i.imm = some imm ∧ branchTaken s i = some taken ∧ t.pc = if taken then s.pc + imm else s.pc + 4 := by
  have hnone := dataAccess_of_format_B s hB
  cases exec_cases h with
  | branch imm taken _ himm htaken ht' =>
    exact ⟨imm, taken, himm, htaken, by cases taken <;> simp [ht', State.pcRelative, State.nextPc]⟩
  | result _ _ _ hpc => exact absurd hB hpc.1
  | jal _ _ hjal => simp [hjal, Instr.mnemonic, Mnemonic.format] at hB
  | jalr _ _ _ hjalr => simp [hjalr, Instr.mnemonic, Mnemonic.format] at hB
  | noop hnoop => rcases hnoop with hm | hm | hm <;> simp [hm, Mnemonic.format] at hB
  | store _ _ _ haccess => simp [hnone] at haccess
  | fault _ _ _ haccess => simp [hnone] at haccess

theorem exec_pc_jal {i : Instr} {s t : State} (h : exec i s = .next t) (hi : i.mnemonic = .jal) :
    ∃ imm, i.imm = some imm ∧ t.pc = s.pc + imm := by
  cases i with
  | jal rd imm =>
    obtain rfl := Host.Outcome.next.inj h
    exact ⟨imm, rfl, rfl⟩
  | _ => exact absurd hi nofun

/-- JALR reads x[rs1] before the link is written, so rd = rs1 makes no difference (D17). -/
theorem exec_pc_jalr {i : Instr} {s t : State} (h : exec i s = .next t) (hi : i.mnemonic = .jalr) :
    ∃ imm rs1, i.imm = some imm ∧ i.rs1 = some rs1 ∧ t.pc = (s.readReg rs1 + imm) &&& 0xFFFFFFFE#32 := by
  cases i with
  | jalr rd rs1 imm =>
    obtain rfl := Host.Outcome.next.inj h
    exact ⟨imm, rs1, rfl, rfl, rfl⟩
  | _ => exact absurd hi nofun

/-! ### The obligations -/

/-- Settles O34: the cases of `exec` give the next pc, and a step that stops the machine keeps the pc. -/
theorem pcTakesOneNextValue : Obligations.PcTakesOneNextValue := by
  refine ⟨fun i s t _ h ht => ⟨exec_pc_sequential h ht, exec_pc_branch h, exec_pc_jal h, exec_pc_jalr h⟩, ?_⟩
  intro s t h ht
  exact (step_stop_onlyRunState h ht).pc

/-- Settles O50: a step that faults keeps the registers, so the report's snapshot is that of the state before. -/
theorem faultReportGivesRecordAndRegisters : Obligations.FaultReportGivesRecordAndRegisters := by
  refine ⟨fun s t r h hr => ?_, fun s h => State.faultReport_eq_none fun r => ?_⟩
  · have honly := step_stop_onlyRunState h (by simp [hr])
    exact ⟨_, State.faultReport_of_faulted hr, rfl, fun i => (t.registers_getElem i).trans (honly.regs i)⟩
  · rcases h with h | h <;> simp [h]

/-- Settles O8, by the rules of `readReg` after `writeReg`. -/
theorem registerFileReadsAndWrites : Obligations.RegisterFileReadsAndWrites := by
  intro s i v
  exact ⟨s.readReg_zero, s.writeReg_zero v, fun hi => s.readReg_writeReg_same hi v,
    fun _ hj => s.readReg_writeReg_other hj v, s.writeReg_pc i v, fun _ => by rw [s.writeReg_mem],
    s.writeReg_runState i v, s.writeReg_memSize i v, s.writeReg_halt i v, s.writeReg_stop i v⟩

/-- Settles O9, by the two cases of ENTRY. -/
theorem resetStartsRunningAtTheEntry : Obligations.ResetStartsRunningAtTheEntry := by
  intro p stop
  exact ⟨fun _ => entryAddress_of_some, entryAddress_of_none, State.resetWith_runState p stop, rfl, State.readReg_zero _⟩

end Sys2Proof.Machine
end

section
/-! Stores, and the narrower reads of a stored word (20_memory.md). -/

namespace Sys2Proof.Bits

/-- Byte k of the n bytes of v from byte j on is byte j + k of v. -/
theorem extractLsb'_byte_of_part {w : Nat} (v : BitVec w) {j k n : Nat} (hk : k < n) :
    (v.extractLsb' (8 * j) (8 * n)).extractLsb' (8 * k) 8 = v.extractLsb' (8 * (j + k)) 8 := by
  apply BitVec.eq_of_getLsbD_eq
  intro i hi
  have hin : 8 * k + i < 8 * n := by omega
  simp [hi, hin, Nat.mul_add, Nat.add_assoc]

/-- The low bytes of a value do not depend on the bits above them. -/
theorem leBytes_setWidth {w n m : Nat} (v : BitVec w) (h : 8 * n ≤ m) : leBytes n (v.setWidth m) = leBytes n v :=
  List.map_congr_left fun k hk => BitVec.extractLsb'_setWidth_of_le (by have := List.mem_range.mp hk; omega)

end Sys2Proof.Bits

namespace Sys2Proof.Machine

/-! ### Reads after a store (R57) -/

/-- The stored bytes read back as the value's, the least significant first. -/
theorem State.read_stored_same {s : State} (hwf : s.mem.wf) (a : Word) {w n k : Nat} (v : BitVec w) (hk : k < n) :
    (s.stored a (Bits.leBytes n v)).mem.read (a.toNat + k) = v.extractLsb' (8 * k) 8 := by
  rw [Memory.read_writeBytes_same _ _ _ _ (by simpa using hk) hwf, Bits.leBytes_getElem]

/-- A store leaves every other byte alone. -/
theorem State.read_stored_other (s : State) (a : Word) (bytes : List Byte) {b : Nat}
    (h : b < a.toNat ∨ a.toNat + bytes.length ≤ b) : (s.stored a bytes).mem.read b = s.mem.read b :=
  Memory.read_writeBytes_other bytes s.mem a.toNat b h

/-! ### Reads of a part of a word (R51) -/

/-- The n bytes at offset j of a word in memory read as bytes j to j + n - 1 of it: inside a capacity of at most 2^32
bytes the address of a part of the word does not wrap. -/
theorem State.load_part_of_wordAt {s : State} {a v : Word} (hv : WordAt s a.toNat v) (hb : a.toNat + 4 ≤ s.memSize)
    (hsize : s.memSize ≤ 2 ^ 32) {j n : Nat} (hn : 0 < n) (hj : j + n ≤ 4) :
    (s.memRead (a + BitVec.ofNat 32 j) n).map (Bits.ofLE (8 * n)) = some (v.extractLsb' (8 * j) (8 * n)) := by
  have haddr : (a + BitVec.ofNat 32 j).toNat = a.toNat + j := by
    rw [BitVec.toNat_add, BitVec.toNat_ofNat]; omega
  refine (s.load_eq_some _ n _ rfl _).mpr ⟨by omega, fun k hk => ?_⟩
  rw [Bits.extractLsb'_byte_of_part v hk, haddr, Nat.add_assoc, hv (j + k) (by omega)]

/-! ### The obligations -/

/-- Settles O16: each width writes the low bytes of v, whole or not at all, and reads after a store give the bytes. -/
theorem memWriteStoresExactlyItsBytes : Obligations.MemWriteStoresExactlyItsBytes := by
  intro s a v n r hwf hr
  have hwrite : 0 < n ∧ r = s.memWrite a (Bits.leBytes n v) := by
    rcases hr with ⟨rfl, rfl⟩ | ⟨rfl, rfl⟩ | ⟨rfl, rfl⟩
    · exact ⟨by decide, by rw [State.storeByte, Bits.leBytes_setWidth v (by decide)]⟩
    · exact ⟨by decide, by rw [State.storeHalf, Bits.leBytes_setWidth v (by decide)]⟩
    · exact ⟨by decide, rfl⟩
  obtain ⟨hn, rfl⟩ := hwrite
  refine ⟨fun hout => (s.memWrite_eq_none a _).mpr ?_, fun hin => ⟨s.stored a (Bits.leBytes n v), ?_, ?_, ?_, ?_⟩⟩
  · rw [Bits.leBytes_length]; omega
  · exact (s.memWrite_eq_some _ a _).mpr ⟨by rw [Bits.leBytes_length]; omega, rfl⟩
  · exact fun _ => State.read_stored_same hwf a v
  · exact fun b hb => s.read_stored_other a _ (by rwa [Bits.leBytes_length])
  · exact ⟨fun _ => rfl, rfl, rfl, rfl, rfl, rfl⟩

/-- Settles O18: the stored word is in memory, where a byte and a half are parts of it and the fetch reads it whole. -/
theorem narrowReadsSeeTheStoredWord : Obligations.NarrowReadsSeeTheStoredWord := by
  rintro s t a v ⟨hwf, -, hsize⟩ hstore
  obtain ⟨hin, rfl⟩ := (s.memWrite_eq_some t a _).mp hstore
  have hb : a.toNat + 4 ≤ s.memSize := by simpa using hin
  have hword : WordAt (s.stored a (Bits.leBytes 4 v)) a.toNat v := fun _ => State.read_stored_same hwf a v
  refine ⟨fun k hk => ?_, fun k hk => ?_, fun hpc halign => ?_⟩
  · exact State.load_part_of_wordAt hword hb hsize (n := 1) (by decide) hk
  · have hhalf := State.load_part_of_wordAt hword hb hsize (j := 2 * k) (n := 2) (by decide) (by omega)
    rwa [← Nat.mul_assoc] at hhalf
  · subst hpc
    exact (State.fetch_eq_ok _ v).mpr
      ⟨halign, (State.loadWord_eq_some _ s.pc v).mpr ⟨hb, fun k hk => (hword k hk).symm⟩⟩

end Sys2Proof.Machine
end

section
/-! The components of a decoded instruction (30_encoding.md R81, R88, R92). -/

namespace Sys2Proof

/-! ### The fields as numbers (R81) -/

theorem Bits.opcode_toNat (w : Word) : (Bits.opcode w).toNat = w.toNat % 128 := by
  simp [Bits.opcode]

theorem Bits.rd_val (w : Word) : (Bits.rd w).val = w.toNat / 2 ^ 7 % 32 := by
  simp [Bits.rd, Nat.shiftRight_eq_div_pow]

theorem Bits.funct3_toNat (w : Word) : (Bits.funct3 w).toNat = w.toNat / 2 ^ 12 % 8 := by
  simp [Bits.funct3, Nat.shiftRight_eq_div_pow]

theorem Bits.rs1_val (w : Word) : (Bits.rs1 w).val = w.toNat / 2 ^ 15 % 32 := by
  simp [Bits.rs1, Nat.shiftRight_eq_div_pow]

theorem Bits.rs2_val (w : Word) : (Bits.rs2 w).val = w.toNat / 2 ^ 20 % 32 := by
  simp [Bits.rs2, Nat.shiftRight_eq_div_pow]

/-- Nothing stands above the funct7 field. -/
theorem Bits.funct7_toNat (w : Word) : (Bits.funct7 w).toNat = w.toNat / 2 ^ 25 := by
  have := w.isLt
  simp only [Bits.funct7, BitVec.extractLsb'_toNat, Nat.shiftRight_eq_div_pow]
  omega

/-! ### The immediate of a shift (R91) -/

/-- The I-immediate is bits 31:25 above the shamt. -/
theorem Bits.immI_eq_funct7_shamt (w : Word) : Bits.immI w = Bits.sext (Bits.funct7 w ++ Bits.shamt w) := by
  have h : Bits.funct7 w ++ Bits.shamt w = w.extractLsb' 20 12 :=
    BitVec.extractLsb'_append_extractLsb'_eq_extractLsb' (by decide)
  rw [h, Bits.immI]

theorem Bits.immI_of_funct7_zero {w : Word} (h : Bits.funct7 w = 0#7) : Bits.immI w = (Bits.shamt w).setWidth 32 := by
  rw [Bits.immI_eq_funct7_shamt, h]
  generalize Bits.shamt w = shamt
  revert shamt
  decide

theorem Bits.immI_of_funct7_srai {w : Word} (h : Bits.funct7 w = 0x20#7) :
    Bits.immI w = 0x400#32 + (Bits.shamt w).setWidth 32 := by
  rw [Bits.immI_eq_funct7_shamt, h]
  generalize Bits.shamt w = shamt
  revert shamt
  decide

/-- The immediate that a word has in a format (R88). -/
def Format.imm (w : Word) : Format → Option Word
  | .R => none
  | .I => some (Bits.immI w)
  | .S => some (Bits.immS w)
  | .B => some (Bits.immB w)
  | .U => some (Bits.immU w)
  | .J => some (Bits.immJ w)

/-! ### The columns of the table agree (R95) -/

theorem Mnemonic.opcode_mask (m : Mnemonic) : Bits.opcode m.mask = 0x7F#7 := by cases m <;> rfl

/-- The mask has the funct3 field of every format that has one. -/
theorem Mnemonic.funct3_mask {m : Mnemonic} : ¬ (m.format = .U ∨ m.format = .J) → Bits.funct3 m.mask = 7#3 := by
  cases m <;> decide

/-- The mask has the funct7 field of the R format, the one that has it. -/
theorem Mnemonic.funct7_mask {m : Mnemonic} : m.format = .R → Bits.funct7 m.mask = 0x7F#7 := by
  cases m <;> decide

theorem Mnemonic.opcode_matchWord (m : Mnemonic) : m.opcode = Bits.opcode m.matchWord := by cases m <;> rfl

theorem Mnemonic.funct3_matchWord (m : Mnemonic) :
    m.funct3 = if m.format = .U ∨ m.format = .J then none else some (Bits.funct3 m.matchWord) := by
  cases m <;> rfl

theorem Mnemonic.funct7_matchWord (m : Mnemonic) :
    m.funct7 = if m.format = .R then some (Bits.funct7 m.matchWord) else none := by
  cases m <;> rfl

/-! ### The selectors of a row are the fields of its words -/

section Row

variable {w : Word} {m : Mnemonic} (h : w &&& m.mask = m.matchWord)
include h

theorem Mnemonic.opcode_of_row : m.opcode = Bits.opcode w := by
  rw [m.opcode_matchWord, ← h, Bits.opcode_and w _ m.opcode_mask]

theorem Mnemonic.funct3_of_row :
    m.funct3 = if m.format = .U ∨ m.format = .J then none else some (Bits.funct3 w) := by
  rw [m.funct3_matchWord]
  split
  case isTrue => rfl
  case isFalse hf => rw [← h, Bits.funct3_and w _ (funct3_mask hf)]

theorem Mnemonic.funct7_of_row : m.funct7 = if m.format = .R then some (Bits.funct7 w) else none := by
  rw [m.funct7_matchWord]
  split
  case isTrue hf => rw [← h, Bits.funct7_and w _ (funct7_mask hf)]
  case isFalse => rfl

/-! ### The components of a row's instruction; ECALL and EBREAK have those of their one word (R97) -/

theorem Mnemonic.instrOf_rd :
    (m.instrOf w).rd = if m.format = .S ∨ m.format = .B then none else some (Bits.rd w) := by
  cases m with
  | ecall | ebreak => obtain rfl := (Bits.word_selects w _).mp h; rfl
  | _ => rfl

theorem Mnemonic.instrOf_rs1 :
    (m.instrOf w).rs1 = if m.format = .U ∨ m.format = .J then none else some (Bits.rs1 w) := by
  cases m with
  | ecall | ebreak => obtain rfl := (Bits.word_selects w _).mp h; rfl
  | _ => rfl

omit h in
theorem Mnemonic.instrOf_rs2 :
    (m.instrOf w).rs2 = if m.format = .R ∨ m.format = .S ∨ m.format = .B then some (Bits.rs2 w) else none := by
  cases m <;> rfl

theorem Mnemonic.instrOf_imm : (m.instrOf w).imm = m.format.imm w := by
  cases m with
  | ecall | ebreak => obtain rfl := (Bits.word_selects w _).mp h; rfl
  | slli | srli | srai =>
    obtain ⟨-, -, hfunct7⟩ := (match_iff_fields w _).mp h
    simp [instrOf, Instr.imm, format, Format.imm, Bits.immI_of_funct7_zero, Bits.immI_of_funct7_srai, hfunct7]
  | _ => rfl

end Row

/-! ### The obligations -/

/-- Settles O5: the word is in a row, whose selectors and components are the fields that the row's format has. -/
theorem decodedFieldsAreTheWordsBits : Obligations.DecodedFieldsAreTheWordsBits := by
  intro w i hdecode
  obtain ⟨m, hrow, rfl⟩ := row_of_decode w i hdecode
  rw [Mnemonic.instrOf_mnemonic, Mnemonic.opcode_of_row hrow, Mnemonic.funct3_of_row hrow, Mnemonic.funct7_of_row hrow,
    Mnemonic.instrOf_rd hrow, Mnemonic.instrOf_rs1 hrow, Mnemonic.instrOf_rs2, Mnemonic.instrOf_imm hrow]
  refine ⟨Bits.opcode_toNat w, ?_, ?_, ?_, ?_, ?_, ?_⟩
  all_goals
    intro hformat
    simp [hformat, Format.imm, Bits.rd_val, Bits.rs1_val, Bits.rs2_val, Bits.funct3_toNat, Bits.funct7_toNat]

end Sys2Proof
end

section
/-! The integer computational instructions (40_alu.md R120 to R140): their rows, their commit, their results. -/

namespace Sys2Proof

/-! ### The words of a row (30_encoding.md R95) -/

/-- The words of a row, and no others, decode to its instruction: the mnemonic tells the row. -/
theorem Mnemonic.rowSelects (m : Mnemonic) : RowSelects m.mask m.matchWord m.instrOf := by
  refine fun w => ⟨decode_of_row w m, fun h => ?_⟩
  obtain ⟨n, hrow, hinstr⟩ := row_of_decode w _ h
  have hmn : m = n := by simpa using congrArg Instr.mnemonic hinstr
  exact hmn ▸ hrow

/-- A left shift-immediate has only zeros at bits 31:25: any others match no pattern of the decoder (R137;
`simp` takes h7 from the context to pass the pattern over). -/
theorem decode_error_of_shiftLeftImm {w : Word} (hop : Bits.opcode w = 0x13#7) (h3 : Bits.funct3 w = 1#3)
    (h7 : Bits.funct7 w ≠ 0#7) : decode w = .error .unknownFunct7 := by
  simp only [decode, decodeOpImm, hop, h3]

/-- A right shift-immediate has 0000000 or 0100000 at bits 31:25: any others match no pattern (R138, R139). -/
theorem decode_error_of_shiftRightImm {w : Word} (hop : Bits.opcode w = 0x13#7) (h3 : Bits.funct3 w = 5#3)
    (h7 : Bits.funct7 w ≠ 0#7) (h7' : Bits.funct7 w ≠ 0x20#7) : decode w = .error .unknownFunct7 := by
  simp only [decode, decodeOpImm, hop, h3]

end Sys2Proof

namespace Sys2Proof.Machine

/-! ### An instruction that commits a result (R120) -/

section Commit

variable {i : Instr} {s : State} {rd : Reg} {v : Word} (h : exec i s = s.writeBack rd v)
include h

/-- It writes x[rd] and goes to pc + 4. -/
theorem exec_writesReg : ∃ t, exec i s = .next t ∧ WritesReg s t rd v (s.pc + 4) :=
  h ▸ s.writeBack_eq rd v

/-- What is known of the committed value is known of what x[rd] takes. -/
theorem exec_writesReg_of {P : Word → Prop} (hv : P v) :
    ∃ t r, exec i s = .next t ∧ WritesReg s t rd r (s.pc + 4) ∧ P r :=
  let ⟨t, hexec, hwrites⟩ := exec_writesReg h
  ⟨t, v, hexec, hwrites, hv⟩

end Commit

/-! ### The results as numbers -/

/-- The difference of the unsigned values, modulo 2^32 (R122). -/
theorem toNat_sub_eq_emod (a b : Word) : ((a - b).toNat : Int) = (a.toNat - b.toNat : Int) % 2 ^ 32 := by
  rw [BitVec.toNat_sub]
  omega

/-- The sum of the signed values, modulo 2^32: the bits of a word do not depend on its reading (R131). -/
theorem toNat_add_eq_emod (a b : Word) : ((a + b).toNat : Int) = (a.toInt + b.toInt) % 2 ^ 32 := by
  rw [BitVec.toNat_add, BitVec.toInt_eq_toNat_cond, BitVec.toInt_eq_toNat_cond]
  omega

theorem toNat_shiftLeft_eq (a : Word) (n : Nat) : (a <<< n).toNat = a.toNat * 2 ^ n % 2 ^ 32 := by
  rw [BitVec.toNat_shiftLeft, Nat.shiftLeft_eq]

theorem toNat_ushiftRight_eq (a : Word) (n : Nat) : (a >>> n).toNat = a.toNat / 2 ^ n := by
  rw [BitVec.toNat_ushiftRight, Nat.shiftRight_eq_div_pow]

/-! ### The obligations -/

/-- Settles O20: each commits its sum or difference, whose value modulo 2^32 is the stated one. -/
theorem addSubAddiResults : Obligations.AddSubAddiResults :=
  ⟨Mnemonic.rowSelects .add, Mnemonic.rowSelects .sub, Mnemonic.rowSelects .addi,
    fun _ _ _ _ => exec_writesReg_of rfl (BitVec.toNat_add _ _),
    fun _ _ _ _ => exec_writesReg_of rfl (toNat_sub_eq_emod _ _),
    fun _ _ _ _ => exec_writesReg_of rfl (toNat_add_eq_emod _ _)⟩

/-- Settles O21: each commits the bitwise operation, whose bits are the operation of the operands' bits. -/
theorem logicalResults : Obligations.LogicalResults := by
  refine ⟨Mnemonic.rowSelects .xor, Mnemonic.rowSelects .or, Mnemonic.rowSelects .and, Mnemonic.rowSelects .xori,
    Mnemonic.rowSelects .ori, Mnemonic.rowSelects .andi, fun rd rs1 rs2 s => ⟨?_, ?_, ?_⟩,
    fun rd rs1 imm s => ⟨?_, ?_, ?_⟩⟩
  · exact exec_writesReg_of rfl fun _ _ => BitVec.getLsbD_xor
  · exact exec_writesReg_of rfl fun _ _ => BitVec.getLsbD_or
  · exact exec_writesReg_of rfl fun _ _ => BitVec.getLsbD_and
  · exact exec_writesReg_of rfl fun _ _ => BitVec.getLsbD_xor
  · exact exec_writesReg_of rfl fun _ _ => BitVec.getLsbD_or
  · exact exec_writesReg_of rfl fun _ _ => BitVec.getLsbD_and

/-- Settles O22: each commits the word of its comparison, which is 1 or 0. -/
theorem comparisonResults : Obligations.ComparisonResults := by
  refine ⟨Mnemonic.rowSelects .slt, Mnemonic.rowSelects .sltu, Mnemonic.rowSelects .slti, Mnemonic.rowSelects .sltiu,
    fun rd rs1 rs2 s => ⟨?_, ?_⟩, fun rd rs1 imm s => ⟨?_, ?_⟩⟩
  all_goals exact exec_writesReg (congrArg (s.writeBack rd) (boolWord_decide _))

/-- Settles O23: each commits its shift, whose value is a product or a quotient by a power of two; the shift amount
of a register is its value modulo 32. -/
theorem shiftResults : Obligations.ShiftResults := by
  refine ⟨Mnemonic.rowSelects .sll, Mnemonic.rowSelects .srl, Mnemonic.rowSelects .sra, Mnemonic.rowSelects .slli,
    Mnemonic.rowSelects .srli, Mnemonic.rowSelects .srai,
    fun w hop h3 h7 => ⟨_, decode_error_of_shiftLeftImm hop h3 h7⟩,
    fun w hop h3 h7 h7' => ⟨_, decode_error_of_shiftRightImm hop h3 h7 h7'⟩,
    fun rd rs1 shamt => by rw [BitVec.ofNat_toNat]; rfl,
    fun rd rs1 rs2 s => ?_, fun rd rs1 shamt s => ⟨?_, ?_, ?_⟩⟩
  · rw [← shiftAmount_eq]
    exact ⟨exec_writesReg_of rfl (toNat_shiftLeft_eq _ _), exec_writesReg_of rfl (toNat_ushiftRight_eq _ _),
      exec_writesReg_of rfl (sshiftRight_toInt _ _)⟩
  · exact exec_writesReg_of rfl (toNat_shiftLeft_eq _ _)
  · exact exec_writesReg_of rfl (toNat_ushiftRight_eq _ _)
  · exact exec_writesReg_of rfl (sshiftRight_toInt _ _)

end Sys2Proof.Machine
end

section
/-! The upper-immediate instructions (41_upper_immediate.md R150 to R152): their rows, their commit, their results. -/

namespace Sys2Proof.Machine

/-- A pc-relative address is the sum of the current pc and the immediate, modulo 2^32 (R152). -/
theorem State.pcRelative_toNat (s : State) (imm : Word) :
    (s.pcRelative imm).toNat = (s.pc.toNat + imm.toNat) % 2 ^ 32 :=
  BitVec.toNat_add s.pc imm

/-! ### The obligations -/

/-- Settles O24: LUI commits the immediate and AUIPC the pc-relative address, whose value is the stated sum. -/
theorem upperImmediateResults : Obligations.UpperImmediateResults :=
  ⟨Mnemonic.rowSelects .lui, Mnemonic.rowSelects .auipc,
    fun _ imm s => ⟨exec_writesReg rfl, exec_writesReg_of rfl (s.pcRelative_toNat imm)⟩⟩

end Sys2Proof.Machine
end

section
/-! The loads and the stores (42_load_store.md R160 to R170): their rows, their access in bounds, their fault. -/

namespace Sys2Proof.Bits

/-! ### The bytes of a byte string, the lowest byte on the right (20_memory.md R51) -/

theorem byte_zero_append {w : Nat} (high : BitVec w) (low : Byte) : (high ++ low).extractLsb' (8 * 0) 8 = low :=
  BitVec.extractLsb'_append_eq_right

theorem byte_succ_append {w : Nat} (high : BitVec w) (low : Byte) (k : Nat) :
    (high ++ low).extractLsb' (8 * (k + 1)) 8 = high.extractLsb' (8 * k) 8 :=
  BitVec.extractLsb'_append_eq_of_le (by omega)

end Sys2Proof.Bits

namespace Sys2Proof.Machine

/-! ### The raw value of a load in bounds (20_memory.md R56) -/

section RawValue

variable {s : State} {a : Word}

theorem State.loadByte_of_inBounds (h : a.toNat < s.memSize) : s.loadByte a = some (s.mem.read a.toNat) := by
  refine (s.loadByte_eq_some a _).mpr ⟨h, fun k hk => ?_⟩
  obtain rfl : k = 0 := by omega
  exact BitVec.extractLsb'_eq_self

theorem State.loadHalf_of_inBounds (h : a.toNat + 1 < s.memSize) :
    s.loadHalf a = some (s.mem.read (a.toNat + 1) ++ s.mem.read a.toNat) := by
  refine (s.loadHalf_eq_some a _).mpr ⟨h, fun k hk => ?_⟩
  match k with
  | 0 => exact Bits.byte_zero_append _ _
  | 1 => rw [Bits.byte_succ_append]; exact BitVec.extractLsb'_eq_self

theorem State.loadWord_of_inBounds (h : a.toNat + 3 < s.memSize) :
    s.loadWord a = some (s.mem.read (a.toNat + 3) ++ s.mem.read (a.toNat + 2) ++ s.mem.read (a.toNat + 1) ++
      s.mem.read a.toNat) := by
  refine (s.loadWord_eq_some a _).mpr ⟨h, fun k hk => ?_⟩
  match k with
  | 0 => exact Bits.byte_zero_append _ _
  | 1 => rw [Bits.byte_succ_append, Bits.byte_zero_append]
  | 2 => rw [Bits.byte_succ_append, Bits.byte_succ_append, Bits.byte_zero_append]
  | 3 => rw [Bits.byte_succ_append, Bits.byte_succ_append, Bits.byte_succ_append]; exact BitVec.extractLsb'_eq_self

end RawValue

/-! ### The address and the two outcomes of an access (42_load_store.md R160, R169) -/

section Access

variable {s : State} {rd rs1 rs2 : Reg} {imm : Word} {n : Nat}

/-- The effective address is the sum of x[rs1] and the immediate, modulo 2^32 (R160). -/
theorem State.effectiveAddress_toNat (s : State) (rs1 : Reg) (imm : Word) :
    (s.effectiveAddress rs1 imm).toNat = ((s.readReg rs1).toNat + imm.toNat) % 2 ^ 32 :=
  BitVec.toNat_add (s.readReg rs1) imm

/-- A load that has its raw value commits the extension of it. -/
theorem execLoad_of_some {load : State → Word → Option (BitVec n)} {extend : BitVec n → Word} {raw : BitVec n}
    (h : load s (s.effectiveAddress rs1 imm) = some raw) :
    execLoad load extend rd rs1 imm s = s.writeBack rd (extend raw) := by
  simp only [execLoad, h]

theorem execLoad_of_none {load : State → Word → Option (BitVec n)} {extend : BitVec n → Word}
    (h : load s (s.effectiveAddress rs1 imm) = none) :
    execLoad load extend rd rs1 imm s = .next (s.dataFault (s.effectiveAddress rs1 imm)) := by
  simp only [execLoad, h]

/-- A store of k bytes in bounds writes the k low bytes of x[rs2], also when its value was cut to n bits before. -/
theorem execStore_of_inBounds {k : Nat} (hwidth : 8 * k ≤ n)
    (h : (s.effectiveAddress rs1 imm).toNat + k ≤ s.memSize) :
    execStore (fun s a (v : BitVec n) => s.memWrite a (Bits.leBytes k v)) rs1 rs2 imm s =
      .next (s.stored (s.effectiveAddress rs1 imm) (Bits.leBytes k (s.readReg rs2))).advance := by
  have hwrite := (s.memWrite_eq_some _ (s.effectiveAddress rs1 imm) (Bits.leBytes k (s.readReg rs2))).mpr
    ⟨by rwa [Bits.leBytes_length], rfl⟩
  simp only [execStore, Bits.leBytes_setWidth _ hwidth, hwrite]

theorem execStore_of_outOfBounds {k : Nat} (h : s.memSize < (s.effectiveAddress rs1 imm).toNat + k) :
    execStore (fun s a (v : BitVec n) => s.memWrite a (Bits.leBytes k v)) rs1 rs2 imm s =
      .next (s.dataFault (s.effectiveAddress rs1 imm)) := by
  have hnone (v : BitVec n) := (s.memWrite_eq_none (s.effectiveAddress rs1 imm) (Bits.leBytes k v)).mpr
    (by rwa [Bits.leBytes_length])
  simp only [execStore, hnone]

/-- A store in bounds changes its bytes and the pc. -/
theorem State.stored_storesBytes (hwf : s.mem.wf) (a v : Word) (n : Nat) :
    StoresBytes s (s.stored a (Bits.leBytes n v)).advance a.toNat n v where
  bytes _ := State.read_stored_same hwf a v
  others _ hb := s.read_stored_other a _ (by rwa [Bits.leBytes_length])
  regs _ := rfl
  pc := rfl
  runState := rfl
  inputs := ⟨rfl, rfl, rfl⟩

/-- Every access out of bounds is a data fault at its address. -/
theorem exec_of_access_outOfBounds {i : Instr} {ea : Word} (hacc : dataAccess s i = some (ea, n))
    (hout : s.memSize < ea.toNat + n) : exec i s = .next (s.dataFault ea) := by
  cases i with
  | lb | lbu => cases hacc; exact execLoad_of_none ((s.loadByte_eq_none _).mpr hout)
  | lh | lhu => cases hacc; exact execLoad_of_none ((s.loadHalf_eq_none _).mpr hout)
  | lw => cases hacc; exact execLoad_of_none ((s.loadWord_eq_none _).mpr hout)
  | sb | sh | sw => cases hacc; exact execStore_of_outOfBounds hout
  | _ => cases hacc

/-- Every store in bounds writes the low bytes of x[rs2] and goes on. -/
theorem exec_of_store_inBounds {i : Instr} {ea : Word} (hstore : isStore i = true) (hrs2 : i.rs2 = some rs2)
    (hacc : dataAccess s i = some (ea, n)) (hin : ea.toNat + n ≤ s.memSize) :
    exec i s = .next (s.stored ea (Bits.leBytes n (s.readReg rs2))).advance := by
  cases i with
  | sb | sh | sw => cases hrs2; cases hacc; exact execStore_of_inBounds (by decide) hin
  | _ => cases hstore

/-- The number of bytes of each load (R161 to R165). -/
theorem dataAccess_of_load {i : Instr}
    (h : (i, n) ∈ [(Instr.lb rd rs1 imm, 1), (.lbu rd rs1 imm, 1), (.lh rd rs1 imm, 2), (.lhu rd rs1 imm, 2),
      (.lw rd rs1 imm, 4)]) : dataAccess s i = some (s.effectiveAddress rs1 imm, n) ∧ 0 < n := by
  simp only [List.mem_cons, Prod.mk.injEq, List.not_mem_nil, or_false] at h
  rcases h with ⟨rfl, rfl⟩ | ⟨rfl, rfl⟩ | ⟨rfl, rfl⟩ | ⟨rfl, rfl⟩ | ⟨rfl, rfl⟩ <;> exact ⟨rfl, by decide⟩

/-- The number of bytes and the value's register of each store (R166 to R168). -/
theorem dataAccess_of_store {i : Instr}
    (h : (i, n) ∈ [(Instr.sb rs1 rs2 imm, 1), (.sh rs1 rs2 imm, 2), (.sw rs1 rs2 imm, 4)]) :
    isStore i = true ∧ i.rs2 = some rs2 ∧ dataAccess s i = some (s.effectiveAddress rs1 imm, n) ∧ 0 < n := by
  simp only [List.mem_cons, Prod.mk.injEq, List.not_mem_nil, or_false] at h
  rcases h with ⟨rfl, rfl⟩ | ⟨rfl, rfl⟩ | ⟨rfl, rfl⟩ <;> exact ⟨rfl, rfl, rfl, by decide⟩

end Access

/-! ### The obligations -/

/-- Settles O25: in bounds each commits the extension of the bytes at its address, out of bounds each is a data
fault. -/
theorem loadResults : Obligations.LoadResults := by
  refine ⟨Mnemonic.rowSelects .lb, Mnemonic.rowSelects .lh, Mnemonic.rowSelects .lw, Mnemonic.rowSelects .lbu,
    Mnemonic.rowSelects .lhu, fun rd rs1 imm s ea hea => ?_⟩
  obtain rfl := hea.trans (s.effectiveAddress_toNat rs1 imm).symm
  refine ⟨fun hin => ?_, fun hin => ?_, fun hin => ?_, fun i n hi hout => ?_⟩
  · have hload := State.loadByte_of_inBounds hin
    exact ⟨exec_writesReg_of (i := .lb rd rs1 imm) (execLoad_of_some hload) (Bits.sext_toInt (by decide) _),
      exec_writesReg_of (i := .lbu rd rs1 imm) (execLoad_of_some hload) (Bits.zext_toNat (by decide) _)⟩
  · have hload := State.loadHalf_of_inBounds hin
    exact ⟨exec_writesReg_of (i := .lh rd rs1 imm) (execLoad_of_some hload) (Bits.sext_toInt (by decide) _),
      exec_writesReg_of (i := .lhu rd rs1 imm) (execLoad_of_some hload) (Bits.zext_toNat (by decide) _)⟩
  · exact exec_writesReg (execLoad_of_some (State.loadWord_of_inBounds hin))
  · obtain ⟨hacc, hn⟩ := dataAccess_of_load hi
    exact ⟨_, _, exec_of_access_outOfBounds hacc (by omega), rfl, s.dataFault_only _, rfl, rfl⟩

/-- Settles O26: in bounds each writes the low bytes of x[rs2] at its address, out of bounds each is a data fault. -/
theorem storeResults : Obligations.StoreResults := by
  refine ⟨Mnemonic.rowSelects .sb, Mnemonic.rowSelects .sh, Mnemonic.rowSelects .sw,
    fun rs1 rs2 imm s i n hwf => ⟨s.effectiveAddress_toNat rs1 imm, fun hi => ?_⟩⟩
  obtain ⟨hstore, hrs2, hacc, hn⟩ := dataAccess_of_store hi
  refine ⟨fun hin => ⟨_, exec_of_store_inBounds hstore hrs2 hacc (by omega), ?_⟩, fun hout => ?_⟩
  · exact State.stored_storesBytes hwf _ _ n
  · exact ⟨_, _, exec_of_access_outOfBounds hacc (by omega), rfl, s.dataFault_only _, rfl, rfl⟩

end Sys2Proof.Machine
end

section
/-! The conditional branches (43_branch.md R180 to R186): their rows, their relations, the pc they go to. -/

namespace Sys2Proof.Machine

/-! ### The relations as numbers -/

theorem lessSigned_iff (a b : Word) : lessSigned a b = true ↔ a.toInt < b.toInt :=
  decide_eq_true_iff

theorem lessUnsigned_iff (a b : Word) : lessUnsigned a b = true ↔ a.toNat < b.toNat :=
  decide_eq_true_iff

/-- Not less is the other order, from b to a (R184). -/
theorem not_lessSigned_iff (a b : Word) : (!lessSigned a b) = true ↔ b.toInt ≤ a.toInt := by
  rw [Bool.not_eq_true', ← Bool.not_eq_true, lessSigned_iff, Int.not_lt]

/-- Not less is the other order, from b to a (R186). -/
theorem not_lessUnsigned_iff (a b : Word) : (!lessUnsigned a b) = true ↔ b.toNat ≤ a.toNat := by
  rw [Bool.not_eq_true', ← Bool.not_eq_true, lessUnsigned_iff, Nat.not_lt]

/-! ### An instruction that branches (R180) -/

/-- It completes, and goes to pc + imm when the relation that its bit decides holds, else to pc + 4. -/
theorem exec_setsPc_of_branch {i : Instr} {s : State} {taken : Bool} {imm : Word} {relation : Prop}
    [Decidable relation] (h : exec i s = s.branch taken imm) (htaken : taken = true ↔ relation) :
    ∃ t, exec i s = .next t ∧ SetsPc s t (if relation then s.pc + imm else s.pc + 4) := by
  simpa only [h, htaken] using s.branch_eq taken imm

/-! ### The obligations -/

/-- Settles O27: each branches on a bit that decides its relation. -/
theorem branchResults : Obligations.BranchResults := by
  refine ⟨Mnemonic.rowSelects .beq, Mnemonic.rowSelects .bne, Mnemonic.rowSelects .blt, Mnemonic.rowSelects .bge,
    Mnemonic.rowSelects .bltu, Mnemonic.rowSelects .bgeu, fun rs1 rs2 imm s => ⟨?_, ?_, ?_, ?_, ?_, ?_⟩⟩
  · exact exec_setsPc_of_branch rfl beq_iff_eq
  · exact exec_setsPc_of_branch rfl bne_iff_ne
  · exact exec_setsPc_of_branch rfl (lessSigned_iff _ _)
  · exact exec_setsPc_of_branch rfl (not_lessSigned_iff _ _)
  · exact exec_setsPc_of_branch rfl (lessUnsigned_iff _ _)
  · exact exec_setsPc_of_branch rfl (not_lessUnsigned_iff _ _)

end Sys2Proof.Machine
end

section
/-! The unconditional jumps (44_jump.md R190 to R193): their rows, their link, the pc they go to. -/

namespace Sys2Proof.Machine

/-! ### An instruction that jumps and links (R190) -/

/-- It completes whatever the target: x[rd] takes pc + 4, the pc takes the target, and what is known of the target is
known of the pc. -/
theorem exec_links_of_jumpAndLink {i : Instr} {s : State} {rd : Reg} {target : Word} {P : Word → Prop}
    (h : exec i s = s.jumpAndLink rd target) (htarget : P target) :
    ∃ t npc, exec i s = .next t ∧ WritesReg s t rd (s.pc + 4) npc ∧ P npc :=
  let ⟨t, hnext, hwrites⟩ := s.jumpAndLink_eq rd target
  ⟨t, target, h.trans hnext, hwrites, htarget⟩

/-! ### The obligations -/

/-- Settles O28: JAL links and jumps to the pc-relative address, whose value is the stated sum. -/
theorem jalResults : Obligations.JalResults :=
  ⟨Mnemonic.rowSelects .jal, fun _ imm s => exec_links_of_jumpAndLink rfl (s.pcRelative_toNat imm)⟩

end Sys2Proof.Machine
end

section
/-! The step as a whole (46_step_sequencer.md R217): it commits one instruction, or it stops the machine. -/

namespace Sys2Proof.Machine

theorem RunState.ne_running_iff (r : RunState) : r ≠ .running ↔ r = .halted ∨ ∃ f, r = .faulted f := by
  cases r <;> simp

/-- Of the ways a step can go, only the one that executes an instruction stays Running. -/
theorem step_running_commits {s t : State} (h : step s = .next t) (ht : t.runState = .running) :
    ∃ w i, Fetches s w ∧ decode w = .ok i ∧ exec i s.sampleStop = .next t := by
  obtain ⟨hrun, hcase⟩ := step_cases h
  cases hcase with
  | execute w i hstop hfetch _ hdecode hexec =>
    exact ⟨w, i, (fetches_iff s w).mpr ⟨hrun, hstop, hfetch⟩, hdecode, hexec⟩
  | stop _ ht' | halt _ _ _ _ ht' | fetchFault _ _ _ ht' | decodeFault _ _ _ _ _ _ ht' => simp [ht'] at ht

/-! ### The obligations -/

/-- Settles O46: a step that stays Running commits its instruction, and a step that stops the machine changes only the
run state. -/
theorem stepIsAtomic : Obligations.StepIsAtomic := by
  intro s t h
  by_cases ht : t.runState = .running
  · exact .inl ⟨ht, step_running_commits h ht⟩
  · exact .inr ⟨(RunState.ne_running_iff _).mp ht, step_stop_onlyRunState h ht⟩

end Sys2Proof.Machine
end

section
/-! DecodeError (60_exceptions.md R231): the words of no row, and the step that fetches one. -/

namespace Sys2Proof

/-- What decodes is in a row, so a word of no row is rejected (30_encoding.md R100). -/
theorem decode_error_of_no_row {w : Word} (hrow : ∀ m : Mnemonic, w &&& m.mask ≠ m.matchWord) :
    ∃ e, decode w = .error e := by
  cases hdecode : decode w with
  | error e => exact ⟨e, rfl⟩
  | ok i =>
    obtain ⟨m, hm, -⟩ := row_of_decode w i hdecode
    exact absurd hm (hrow m)

end Sys2Proof

namespace Sys2Proof.Machine

theorem decodeAndExecute_of_error {s : State} {w : Word} {e : DecodeReject} (h : decode w = .error e) :
    decodeAndExecute s w = .next (s.raise .decodeError s.pc (some w)) := by
  simp only [decodeAndExecute, h]

/-- A fault that the step itself raises changes the run state; of the inputs only STOP has lost its bit (R236). -/
theorem State.sampleStop_raise_only (s : State) (k : FaultKind) (a : Word) (w : Option Word) :
    OnlyRunState s (s.sampleStop.raise k a w) (.faulted ⟨k, s.pc, a, w⟩) :=
  ⟨rfl, fun _ => rfl, rfl, fun _ => rfl, rfl, rfl⟩

/-! ### The obligations -/

/-- Settles O42: the step gets as far as the decoder, which rejects a word of no row, and takes the fault. -/
theorem illegalWordFaults : Obligations.IllegalWordFaults := by
  intro s w hfetches hhalt hrow
  obtain ⟨hrun, hstop, hfetch⟩ := (fetches_iff s w).mp hfetches
  obtain ⟨e, hdecode⟩ := decode_error_of_no_row hrow
  have hstep : step s = .next (s.sampleStop.raise .decodeError s.pc (some w)) :=
    (step_of_decode hrun hstop hfetch hhalt).trans (decodeAndExecute_of_error hdecode)
  exact ⟨_, hstep, s.sampleStop_raise_only .decodeError s.pc (some w)⟩

end Sys2Proof.Machine
end

section
/-! Encoding and decoding: the round trip, the immediates, the rows and the illegal words (30_encoding.md). -/

namespace Sys2Proof

/-! ### The operands of an encoded word (R82 to R88) -/

section Operands

variable {a : Word} {rd rs1 rs2 : Reg}

theorem encodeR_operands (g : BitVec 7) (f : BitVec 3) (o : BitVec 7) :
    Bits.rd (encodeR g rs2 rs1 f rd o) = rd ∧ Bits.rs1 (encodeR g rs2 rs1 f rd o) = rs1 ∧
      Bits.rs2 (encodeR g rs2 rs1 f rd o) = rs2 :=
  ⟨Reg.eq_of_bits (encodeR_rd ..), Reg.eq_of_bits (encodeR_rs1 ..), Reg.eq_of_bits (encodeR_rs2 ..)⟩

theorem encodeShift_operands (g : BitVec 7) (shamt : BitVec 5) (f : BitVec 3) (o : BitVec 7) :
    Bits.rd (encodeShift g shamt rs1 f rd o) = rd ∧ Bits.rs1 (encodeShift g shamt rs1 f rd o) = rs1 ∧
      Bits.shamt (encodeShift g shamt rs1 f rd o) = shamt :=
  ⟨Reg.eq_of_bits (encodeShift_rd ..), Reg.eq_of_bits (encodeShift_rs1 ..), encodeShift_shamt ..⟩

theorem encodeI_operands (h : immFits12 a = true) (f : BitVec 3) (o : BitVec 7) :
    Bits.rd (encodeI a rs1 f rd o) = rd ∧ Bits.rs1 (encodeI a rs1 f rd o) = rs1 ∧
      Bits.immI (encodeI a rs1 f rd o) = a :=
  ⟨Reg.eq_of_bits (encodeI_rd ..), Reg.eq_of_bits (encodeI_rs1 ..), (encodeI_immI ..).trans (immFits12.eq h)⟩

theorem encodeS_operands (h : immFits12 a = true) (f : BitVec 3) (o : BitVec 7) :
    Bits.rs1 (encodeS a rs2 rs1 f o) = rs1 ∧ Bits.rs2 (encodeS a rs2 rs1 f o) = rs2 ∧
      Bits.immS (encodeS a rs2 rs1 f o) = a :=
  ⟨Reg.eq_of_bits (encodeS_rs1 ..), Reg.eq_of_bits (encodeS_rs2 ..), (encodeS_immS ..).trans (immFits12.eq h)⟩

theorem encodeB_operands (h : immFitsB a = true) (f : BitVec 3) (o : BitVec 7) :
    Bits.rs1 (encodeB a rs2 rs1 f o) = rs1 ∧ Bits.rs2 (encodeB a rs2 rs1 f o) = rs2 ∧
      Bits.immB (encodeB a rs2 rs1 f o) = a :=
  ⟨Reg.eq_of_bits (encodeB_rs1 ..), Reg.eq_of_bits (encodeB_rs2 ..), (encodeB_immB ..).trans (immFitsB.eq h)⟩

theorem encodeU_operands (h : immFitsU a = true) (o : BitVec 7) :
    Bits.rd (encodeU a rd o) = rd ∧ Bits.immU (encodeU a rd o) = a :=
  ⟨Reg.eq_of_bits (encodeU_rd ..), (encodeU_immU ..).trans (immFitsU.eq h)⟩

theorem encodeJ_operands (h : immFitsJ a = true) (o : BitVec 7) :
    Bits.rd (encodeJ a rd o) = rd ∧ Bits.immJ (encodeJ a rd o) = a :=
  ⟨Reg.eq_of_bits (encodeJ_rd ..), (encodeJ_immJ ..).trans (immFitsJ.eq h)⟩

end Operands

/-! ### Encode, then decode -/

open Laws in
/-- The encoding of an instruction is a word of its row. -/
theorem encode_mem_row (i : Instr) : EncodeMatchesRow.Statement i := by
  cases i
  exacts [EncodeMatchesRow.lui .., EncodeMatchesRow.auipc .., EncodeMatchesRow.jal .., EncodeMatchesRow.jalr ..,
    EncodeMatchesRow.beq .., EncodeMatchesRow.bne .., EncodeMatchesRow.blt .., EncodeMatchesRow.bge ..,
    EncodeMatchesRow.bltu .., EncodeMatchesRow.bgeu .., EncodeMatchesRow.lb .., EncodeMatchesRow.lh ..,
    EncodeMatchesRow.lw .., EncodeMatchesRow.lbu .., EncodeMatchesRow.lhu .., EncodeMatchesRow.sb ..,
    EncodeMatchesRow.sh .., EncodeMatchesRow.sw .., EncodeMatchesRow.addi .., EncodeMatchesRow.slti ..,
    EncodeMatchesRow.sltiu .., EncodeMatchesRow.xori .., EncodeMatchesRow.ori .., EncodeMatchesRow.andi ..,
    EncodeMatchesRow.slli .., EncodeMatchesRow.srli .., EncodeMatchesRow.srai .., EncodeMatchesRow.add ..,
    EncodeMatchesRow.sub .., EncodeMatchesRow.sll .., EncodeMatchesRow.slt .., EncodeMatchesRow.sltu ..,
    EncodeMatchesRow.xor .., EncodeMatchesRow.srl .., EncodeMatchesRow.sra .., EncodeMatchesRow.or ..,
    EncodeMatchesRow.and .., EncodeMatchesRow.fence .., EncodeMatchesRow.ecall, EncodeMatchesRow.ebreak]

/-- The row makes a well-formed instruction again of the fields of its encoding. -/
theorem instrOf_encode {i : Instr} (h : i.wf = true) : i.mnemonic.instrOf (encode i) = i := by
  cases i with
  | lui | auipc => simp only [Instr.mnemonic, Mnemonic.instrOf, encode, encodeU_operands h]
  | jal => simp only [Instr.mnemonic, Mnemonic.instrOf, encode, encodeJ_operands h]
  | beq | bne | blt | bge | bltu | bgeu => simp only [Instr.mnemonic, Mnemonic.instrOf, encode, encodeB_operands h]
  | sb | sh | sw => simp only [Instr.mnemonic, Mnemonic.instrOf, encode, encodeS_operands h]
  | slli | srli | srai => simp only [Instr.mnemonic, Mnemonic.instrOf, encode, encodeShift_operands]
  | add | sub | sll | slt | sltu | xor | srl | sra | or | and =>
    simp only [Instr.mnemonic, Mnemonic.instrOf, encode, encodeR_operands]
  | ecall | ebreak => rfl
  | _ => simp only [Instr.mnemonic, Mnemonic.instrOf, encode, encodeI_operands h]

/-! ### Decode, then encode (R93) -/

/-- A word of a row is the encoding of the row's instruction: its selectors are the row's and its operands are kept. -/
theorem encode_instrOf {w : Word} {m : Mnemonic} (h : w &&& m.mask = m.matchWord) : encode (m.instrOf w) = w := by
  have hfields := (m.match_iff_fields w).mp h
  cases m with
  | lui | auipc => simpa only [Mnemonic.instrOf, encode, show Bits.opcode w = _ from hfields] using encodeU_fields w
  | jal => simpa only [Mnemonic.instrOf, encode, show Bits.opcode w = _ from hfields] using encodeJ_fields w
  | beq | bne | blt | bge | bltu | bgeu =>
    obtain ⟨hopcode, hfunct3⟩ := hfields
    simpa only [Mnemonic.instrOf, encode, hopcode, hfunct3] using encodeB_fields w
  | sb | sh | sw =>
    obtain ⟨hopcode, hfunct3⟩ := hfields
    simpa only [Mnemonic.instrOf, encode, hopcode, hfunct3] using encodeS_fields w
  | slli | srli | srai =>
    obtain ⟨hopcode, hfunct3, hfunct7⟩ := hfields
    simpa only [Mnemonic.instrOf, encode, hopcode, hfunct3, hfunct7] using encodeShift_fields w
  | add | sub | sll | slt | sltu | xor | srl | sra | or | and =>
    obtain ⟨hopcode, hfunct3, hfunct7⟩ := hfields
    simpa only [Mnemonic.instrOf, encode, hopcode, hfunct3, hfunct7] using encodeR_fields w
  | ecall | ebreak => subst hfields; rfl
  | _ =>
    obtain ⟨hopcode, hfunct3⟩ := hfields
    simpa only [Mnemonic.instrOf, encode, hopcode, hfunct3] using encodeI_fields w

/-! ### The immediates of a word (R88 to R90) -/

namespace Bits

theorem immI_getLsbD (w : Word) {k : Nat} (hk : k < 32) :
    (immI w).getLsbD k = if k ≤ 10 then w.getLsbD (k + 20) else w.getLsbD 31 := by
  rw [immI, sext, BitVec.getLsbD_signExtend, BitVec.msb_eq_getLsbD_last]
  simp only [BitVec.getLsbD_extractLsb']
  interval_cases k <;> simp

theorem immS_getLsbD (w : Word) {k : Nat} (hk : k < 32) : (immS w).getLsbD k =
    if k ≤ 4 then w.getLsbD (k + 7) else if k ≤ 10 then w.getLsbD (k + 20) else w.getLsbD 31 := by
  rw [immS, sext, BitVec.getLsbD_signExtend, BitVec.msb_eq_getLsbD_last]
  simp only [BitVec.getLsbD_append, BitVec.getLsbD_extractLsb']
  interval_cases k <;> simp

theorem immB_getLsbD (w : Word) {k : Nat} (hk : k < 32) : (immB w).getLsbD k =
    if k = 0 then false else if k ≤ 4 then w.getLsbD (k + 7) else if k ≤ 10 then w.getLsbD (k + 20)
    else if k = 11 then w.getLsbD 7 else w.getLsbD 31 := by
  rw [immB, sext, BitVec.getLsbD_signExtend, BitVec.msb_eq_getLsbD_last]
  simp only [BitVec.getLsbD_append, BitVec.getLsbD_extractLsb']
  interval_cases k <;> simp

theorem immU_getLsbD (w : Word) {k : Nat} (hk : k < 32) :
    (immU w).getLsbD k = if k ≤ 11 then false else w.getLsbD k := by
  simp only [immU, BitVec.getLsbD_append, BitVec.getLsbD_extractLsb']
  interval_cases k <;> simp

theorem immJ_getLsbD (w : Word) {k : Nat} (hk : k < 32) : (immJ w).getLsbD k =
    if k = 0 then false else if k ≤ 10 then w.getLsbD (k + 20) else if k = 11 then w.getLsbD 20
    else if k ≤ 19 then w.getLsbD k else w.getLsbD 31 := by
  rw [immJ, sext, BitVec.getLsbD_signExtend, BitVec.msb_eq_getLsbD_last]
  simp only [BitVec.getLsbD_append, BitVec.getLsbD_extractLsb']
  interval_cases k <;> simp

/-- Zeros below a value multiply it by a power of two. -/
theorem append_zero_toInt {n : Nat} (v : BitVec (n + 1)) (z : Nat) : (v ++ 0#z).toInt = 2 ^ z * v.toInt := by
  simp [BitVec.toInt_append]

theorem immI_range (w : Word) : -2048 ≤ (immI w).toInt ∧ (immI w).toInt ≤ 2047 := by
  rw [immI, sext_toInt (by decide)]
  exact ⟨BitVec.le_toInt _, BitVec.toInt_le⟩

theorem immS_range (w : Word) : -2048 ≤ (immS w).toInt ∧ (immS w).toInt ≤ 2047 := by
  rw [immS, sext_toInt (by decide)]
  exact ⟨BitVec.le_toInt _, BitVec.toInt_le⟩

/-- The B-immediate is twice a 12-bit signed value. -/
theorem immB_range (w : Word) : -4096 ≤ (immB w).toInt ∧ (immB w).toInt ≤ 4094 ∧ (immB w).toInt % 2 = 0 := by
  rw [immB, sext_toInt (by decide), append_zero_toInt]
  generalize hv : w.extractLsb' 31 1 ++ w.extractLsb' 7 1 ++ w.extractLsb' 25 6 ++ w.extractLsb' 8 4 = v
  have hlow := BitVec.le_toInt v
  have hhigh := BitVec.toInt_le (x := v)
  omega

/-- The J-immediate is twice a 20-bit signed value. -/
theorem immJ_range (w : Word) : -1048576 ≤ (immJ w).toInt ∧ (immJ w).toInt ≤ 1048574 ∧ (immJ w).toInt % 2 = 0 := by
  rw [immJ, sext_toInt (by decide), append_zero_toInt]
  generalize hv : w.extractLsb' 31 1 ++ w.extractLsb' 12 8 ++ w.extractLsb' 20 1 ++ w.extractLsb' 21 10 = v
  have hlow := BitVec.le_toInt v
  have hhigh := BitVec.toInt_le (x := v)
  omega

theorem immU_multiple (w : Word) : (immU w).toInt % 4096 = 0 := by
  rw [immU, append_zero_toInt]
  exact Int.mul_emod_right _ _

/-- Both readings of a word agree modulo a divisor of 2^32. -/
theorem toNat_emod_of_dvd (v : Word) {n : Nat} (hn : n ∣ 2 ^ 32) : (v.toNat : Int) % n = v.toInt % n := by
  have hdvd : (n : Int) ∣ (2 ^ 32 : Nat) := Int.natCast_dvd_natCast.mpr hn
  rw [← Int.emod_emod_of_dvd v.toInt hdvd, BitVec.toInt_eq_toNat_bmod, Int.bmod_emod, Int.emod_emod_of_dvd _ hdvd]

theorem immFits12_immI (w : Word) : immFits12 (immI w) = true :=
  decide_eq_true (immI_range w)

theorem immFits12_immS (w : Word) : immFits12 (immS w) = true :=
  decide_eq_true (immS_range w)

theorem immFitsB_immB (w : Word) : immFitsB (immB w) = true := by
  obtain ⟨hlow, hhigh, heven⟩ := immB_range w
  have heven' := toNat_emod_of_dvd (immB w) (n := 2) (by decide)
  exact decide_eq_true ⟨hlow, hhigh, by omega⟩

theorem immFitsJ_immJ (w : Word) : immFitsJ (immJ w) = true := by
  obtain ⟨hlow, hhigh, heven⟩ := immJ_range w
  have heven' := toNat_emod_of_dvd (immJ w) (n := 2) (by decide)
  exact decide_eq_true ⟨hlow, hhigh, by omega⟩

theorem immFitsU_immU (w : Word) : immFitsU (immU w) = true := by
  have hmultiple := immU_multiple w
  have hmultiple' := toNat_emod_of_dvd (immU w) (n := 4096) (by decide)
  exact decide_eq_true (by omega)

end Bits

/-- What a row makes of a word is well formed: the immediates of a word lie in their ranges. -/
theorem instrOf_wf (w : Word) (m : Mnemonic) : (m.instrOf w).wf = true := by
  cases m with
  | lui | auipc => exact Bits.immFitsU_immU w
  | jal => exact Bits.immFitsJ_immJ w
  | beq | bne | blt | bge | bltu | bgeu => exact Bits.immFitsB_immB w
  | sb | sh | sw => exact Bits.immFits12_immS w
  | slli | srli | srai | add | sub | sll | slt | sltu | xor | srl | sra | or | and | ecall | ebreak => rfl
  | _ => exact Bits.immFits12_immI w

theorem wf_of_decode {w : Word} {i : Instr} (h : decode w = .ok i) : i.wf = true := by
  obtain ⟨m, -, rfl⟩ := row_of_decode w i h
  exact instrOf_wf w m

/-! ### The rows and the illegal words (R95, R100) -/

/-- A word of two rows would decode to two mnemonics. -/
theorem Mnemonic.eq_of_row {w : Word} {m n : Mnemonic} (hm : w &&& m.mask = m.matchWord)
    (hn : w &&& n.mask = n.matchWord) : m = n := by
  have hinstr := Except.ok.inj ((decode_of_row w m hm).symm.trans (decode_of_row w n hn))
  simpa using congrArg Instr.mnemonic hinstr

theorem decode_error_iff_no_row (w : Word) :
    (∀ m : Mnemonic, w &&& m.mask ≠ m.matchWord) ↔ ∃ e, decode w = .error e := by
  refine ⟨decode_error_of_no_row, ?_⟩
  rintro ⟨e, herror⟩ m hm
  cases herror.symm.trans (decode_of_row w m hm)

/-- A word with none of the eleven major opcodes is rejected (R94). -/
theorem decode_error_of_opcode {w : Word}
    (h : Bits.opcode w ∉ [0x37#7, 0x17#7, 0x6F#7, 0x67#7, 0x63#7, 0x03#7, 0x23#7, 0x13#7, 0x33#7, 0x0F#7, 0x73#7]) :
    decode w = .error .unknownOpcode := by
  simp only [List.mem_cons, List.not_mem_nil, not_or, or_false] at h
  obtain ⟨h1, h2, h3, h4, h5, h6, h7, h8, h9, h10, h11⟩ := h
  simp only [decode]

/-- Each major opcode ends in the bits 11, so a word that does not has none of them. -/
theorem opcode_unknown_of_low_bits {w : Word} (h : w.toNat % 4 ≠ 3) :
    Bits.opcode w ∉ [0x37#7, 0x17#7, 0x6F#7, 0x67#7, 0x63#7, 0x03#7, 0x23#7, 0x13#7, 0x33#7, 0x0F#7, 0x73#7] := by
  have hlow : (Bits.opcode w).toNat % 4 ≠ 3 := by rw [Bits.opcode_toNat]; omega
  intro hmem
  simp only [List.mem_cons, List.not_mem_nil, or_false] at hmem
  rcases hmem with h | h | h | h | h | h | h | h | h | h | h <;> rw [h] at hlow <;> exact hlow rfl

theorem decode_error_of_op_funct7 {w : Word} (hop : Bits.opcode w = 0x33#7) (h7 : Bits.funct7 w ≠ 0#7)
    (h7' : Bits.funct7 w ≠ 0x20#7) : decode w = .error .unknownFunct7 := by
  simp only [decode, decodeOp, hop]
  split <;> simp_all

theorem decode_error_of_op_alternate {w : Word} (hop : Bits.opcode w = 0x33#7) (h7 : Bits.funct7 w = 0x20#7)
    (h3 : Bits.funct3 w ≠ 0#3) (h3' : Bits.funct3 w ≠ 5#3) : decode w = .error .unknownFunct7 := by
  simp only [decode, decodeOp, hop]
  split <;> simp_all

theorem decode_error_of_branch {w : Word} (hop : Bits.opcode w = 0x63#7)
    (h3 : Bits.funct3 w = 2#3 ∨ Bits.funct3 w = 3#3) : decode w = .error .unknownFunct3 := by
  rcases h3 with h3 | h3 <;> simp only [decode, decodeBranch, hop, h3] <;> rfl

theorem decode_error_of_load {w : Word} (hop : Bits.opcode w = 0x03#7)
    (h3 : Bits.funct3 w = 3#3 ∨ Bits.funct3 w = 6#3 ∨ Bits.funct3 w = 7#3) : decode w = .error .unknownFunct3 := by
  rcases h3 with h3 | h3 | h3 <;> simp only [decode, decodeLoad, hop, h3] <;> rfl

theorem decode_error_of_store {w : Word} (hop : Bits.opcode w = 0x23#7) (h3 : 3 ≤ (Bits.funct3 w).toNat) :
    decode w = .error .unknownFunct3 := by
  have hne (f : BitVec 3) (hf : f.toNat < 3) : Bits.funct3 w ≠ f := fun h => by rw [h] at h3; omega
  have h0 := hne 0#3 (by decide)
  have h1 := hne 1#3 (by decide)
  have h2 := hne 2#3 (by decide)
  simp only [decode, decodeStore, hop]

theorem decode_error_of_jalr {w : Word} (hop : Bits.opcode w = 0x67#7) (h3 : Bits.funct3 w ≠ 0#3) :
    decode w = .error .unknownFunct3 := by
  simp only [decode, decodeJalr, hop]

theorem decode_error_of_miscMem {w : Word} (hop : Bits.opcode w = 0x0F#7) (h3 : Bits.funct3 w ≠ 0#3) :
    decode w = .error .unknownFunct3 := by
  simp only [decode, decodeMiscMem, hop]

theorem decode_error_of_system {w : Word} (hop : Bits.opcode w = 0x73#7) (hecall : w ≠ 0x00000073#32)
    (hebreak : w ≠ 0x00100073#32) : decode w = .error .unknownSystemWord := by
  simp only [decode, decodeSystem, hop, hecall, hebreak, if_false]

/-! ### The obligations -/

/-- Settles O2: the encoding is in the instruction's row, which makes the instruction again of its fields. -/
theorem decodeInvertsEncode : Obligations.DecodeInvertsEncode := by
  intro i hwf
  rw [decode_of_row (encode i) i.mnemonic (encode_mem_row i), instrOf_encode hwf]

/-- Settles O3: a legal word is in a row, and the row's instruction is well formed and encodes to the word. -/
theorem reencodingReproducesTheWord : Obligations.ReencodingReproducesTheWord := by
  intro w i hdecode
  obtain ⟨m, hrow, rfl⟩ := row_of_decode w i hdecode
  exact ⟨encode_instrOf hrow, instrOf_wf w m⟩

/-- Settles O4, by the bits and the range of each immediate; a row's instruction has the immediate of its format. -/
theorem immediatesAreTheStatedBits : Obligations.ImmediatesAreTheStatedBits := by
  refine fun w => ⟨fun _ => Bits.immI_getLsbD w, fun _ => Bits.immS_getLsbD w, fun _ => Bits.immB_getLsbD w,
    fun _ => Bits.immU_getLsbD w, fun _ => Bits.immJ_getLsbD w, Bits.immI_range w, Bits.immS_range w,
    Bits.immB_range w, Bits.immU_multiple w, Bits.immJ_range w, fun i hdecode => ?_⟩
  obtain ⟨m, hrow, rfl⟩ := row_of_decode w i hdecode
  rw [Mnemonic.instrOf_imm hrow, Mnemonic.instrOf_mnemonic]
  cases m.format <;> rfl

/-- Settles O6: a word of a row decodes to the row's mnemonic, and what decodes is in a row. -/
theorem rowsSelectByMaskAndMatch : Obligations.RowsSelectByMaskAndMatch := by
  refine ⟨fun w m => ⟨fun h => ⟨_, decode_of_row w m h, m.instrOf_mnemonic w⟩, ?_⟩, fun _ _ _ => Mnemonic.eq_of_row⟩
  rintro ⟨i, hdecode, rfl⟩
  obtain ⟨n, hrow, rfl⟩ := row_of_decode w i hdecode
  rwa [Mnemonic.instrOf_mnemonic]

/-- Settles O7: what decodes is in a row and a row decodes; of each class the decoder rejects every word. -/
theorem wordsOutsideTheTableAreIllegal : Obligations.WordsOutsideTheTableAreIllegal := by
  refine fun w => ⟨decode_error_iff_no_row w, ?_⟩
  rintro (rfl | rfl | hlow | hop | ⟨hop, h7, h7'⟩ | ⟨hop, h7, h3, h3'⟩ | ⟨hop, h3, h7⟩ | ⟨hop, h3, h7, h7'⟩ |
    ⟨hop, h3⟩ | ⟨hop, h3⟩ | ⟨hop, h3⟩ | ⟨hop, h3⟩ | ⟨hop, h3⟩ | ⟨hop, hecall, hebreak⟩)
  · exact ⟨_, rfl⟩
  · exact ⟨_, rfl⟩
  · exact ⟨_, decode_error_of_opcode (opcode_unknown_of_low_bits hlow)⟩
  · exact ⟨_, decode_error_of_opcode hop⟩
  · exact ⟨_, decode_error_of_op_funct7 hop h7 h7'⟩
  · exact ⟨_, decode_error_of_op_alternate hop h7 h3 h3'⟩
  · exact ⟨_, decode_error_of_shiftLeftImm hop h3 h7⟩
  · exact ⟨_, decode_error_of_shiftRightImm hop h3 h7 h7'⟩
  · exact ⟨_, decode_error_of_branch hop h3⟩
  · exact ⟨_, decode_error_of_load hop h3⟩
  · exact ⟨_, decode_error_of_store hop h3⟩
  · exact ⟨_, decode_error_of_jalr hop h3⟩
  · exact ⟨_, decode_error_of_miscMem hop h3⟩
  · exact ⟨_, decode_error_of_system hop hecall hebreak⟩

/-- Settles O1: the decoder computes each instruction. -/
theorem writtenOutWordsDecode : Obligations.WrittenOutWordsDecode :=
  ⟨rfl, rfl, rfl, rfl, rfl, rfl, rfl, rfl, rfl, rfl, rfl⟩

end Sys2Proof
end

section
/-! The memory: its canonical form, its bounds, its reads and writes, and reset and inspection (20_memory.md,
10_state.md R38, R42). -/

namespace Sys2Proof.Machine

/-! ### The canonical form -/

theorem Memory.read_cons (c : Host.Cell) (m : Memory) (a : Nat) :
    Memory.read (c :: m) a = if c.1 = a then c.2 else m.read a := rfl

@[simp] theorem Memory.read_head (c : Host.Cell) (m : Memory) : Memory.read (c :: m) c.1 = c.2 := by
  simp [Memory.read_cons]

/-- A canonical memory that reads the background everywhere has no entry. -/
theorem Memory.eq_nil_of_read {m : Memory} (hm : m.wf) (h : ∀ a, m.read a = Config.unlistedByte) : m = [] := by
  cases m with
  | nil => rfl
  | cons c m => exact absurd ((Memory.read_head c m).symm.trans (h c.1)) (Memory.wf_cons.mp hm).2.1

/-- Canonical memories that read alike have their first entry at the same address: below it the other one would read
the background there. -/
theorem Memory.head_le_of_read {c d : Host.Cell} {m n : Memory} (hm : Memory.wf (c :: m)) (hn : Memory.wf (d :: n))
    (h : ∀ a, Memory.read (c :: m) a = Memory.read (d :: n) a) : d.1 ≤ c.1 := by
  obtain ⟨-, hc, -⟩ := Memory.wf_cons.mp hm
  obtain ⟨hdn, -, -⟩ := Memory.wf_cons.mp hn
  by_contra hlt
  have hread : Memory.read (d :: n) c.1 = Config.unlistedByte := by
    refine Memory.read_of_lt _ _ fun e he => ?_
    rcases List.mem_cons.mp he with rfl | he
    · omega
    · exact Nat.lt_trans (by omega) (hdn e he)
  exact hc (by rw [← Memory.read_head c m, h, hread])

/-- Canonical memories with equal bytes are equal: the first entries agree, and so do the rests. -/
theorem Memory.eq_of_read : ∀ {m n : Memory}, m.wf → n.wf → (∀ a, m.read a = n.read a) → m = n
  | [], _, _, hn, h => (Memory.eq_nil_of_read hn fun a => (h a).symm).symm
  | _ :: _, [], hm, _, h => Memory.eq_nil_of_read hm h
  | (k, v) :: m, (k', v') :: n, hm, hn, h => by
    obtain rfl : k = k' :=
      Nat.le_antisymm (Memory.head_le_of_read hn hm fun a => (h a).symm) (Memory.head_le_of_read hm hn h)
    obtain ⟨hkm, -, hm'⟩ := Memory.wf_cons.mp hm
    obtain ⟨hkn, -, hn'⟩ := Memory.wf_cons.mp hn
    obtain rfl : v = v' := by simpa [Memory.read_cons] using h k
    have htail : m = n := Memory.eq_of_read hm' hn' fun a => by
      by_cases ha : k = a
      · subst ha; rw [Memory.read_of_lt m k hkm, Memory.read_of_lt n k hkn]
      · simpa [Memory.read_cons, ha] using h a
    rw [htail]

/-! ### Reset (10_state.md R38, R40) -/

section Init

variable {p : Params} (hp : p.wf)
include hp

theorem State.resetWith_memoryInv (stop : List Bool) : MemoryInv (State.resetWith p stop) := by
  obtain ⟨hwf, hwithin, hsize⟩ := hp
  refine ⟨Memory.writeBytes_wf _ _ _ hwf, ?_, hsize⟩
  by_cases hbase : p.loadBase.toNat ≤ p.memSize
  · exact Memory.writeBytes_within _ _ _ _ hwithin (by rw [List.length_take, State.resetWith_memSize]; omega)
  · have hnone : p.image.take (p.memSize - p.loadBase.toNat) = [] := by
      rw [Nat.sub_eq_zero_of_le (by omega), List.take_zero]
    rwa [State.resetWith_mem, Memory.init, hnone]

omit hp in
theorem Memory.read_init_other {a : Nat} (h : a < p.loadBase.toNat ∨ p.loadBase.toNat + p.image.length ≤ a) :
    (Memory.init p).read a = Memory.read p.background a :=
  Memory.read_writeBytes_other _ _ _ _ (by rw [List.length_take]; omega)

/-- Below the capacity the image is whole. -/
theorem Memory.read_init_image {k : Nat} (hk : k < p.image.length) (hsize : p.loadBase.toNat + k < p.memSize) :
    (Memory.init p).read (p.loadBase.toNat + k) = p.image[k] := by
  rw [Memory.init, Memory.read_writeBytes_same _ _ _ _ (by rw [List.length_take]; omega) hp.1, List.getElem_take]

end Init

theorem Params.default_wf : Params.default.wf := by decide

/-! ### The invariant of memory -/

theorem memoryInv_of_eq {s t : State} (hs : MemoryInv s) (hmem : t.mem = s.mem) (hsize : t.memSize = s.memSize) :
    MemoryInv t := by
  obtain ⟨hwf, hwithin, hmax⟩ := hs
  exact ⟨hmem ▸ hwf, hmem ▸ hsize ▸ hwithin, hsize ▸ hmax⟩

/-- A store in bounds keeps the invariant of memory. -/
theorem State.stored_memoryInv {s : State} {ea : Word} {bytes : List Byte} (hs : MemoryInv s)
    (hin : ea.toNat + bytes.length ≤ s.memSize) : MemoryInv (s.stored ea bytes) := by
  obtain ⟨hwf, hwithin, hmax⟩ := hs
  exact ⟨Memory.writeBytes_wf _ _ _ hwf, Memory.writeBytes_within _ _ _ _ hwithin hin, hmax⟩

/-- Only a store in bounds writes memory. -/
theorem exec_memoryInv {i : Instr} {s t : State} (hs : MemoryInv s) (h : exec i s = .next t) : MemoryInv t := by
  cases exec_cases h with
  | store ea bytes _ _ hin ht => exact ht ▸ State.stored_memoryInv hs hin
  | branch imm taken _ _ _ ht => subst ht; cases taken <;> exact hs
  | result _ _ _ _ _ _ _ ht | jal _ _ _ ht | jalr _ _ _ _ ht | noop _ ht | fault _ _ _ _ _ ht =>
    exact memoryInv_of_eq hs (by simp [ht, State.dataFault]) (by simp [ht, State.dataFault])

theorem step_memoryInv {s t : State} (hs : MemoryInv s) (h : step s = .next t) : MemoryInv t := by
  obtain ⟨-, hcase⟩ := step_cases h
  cases hcase with
  | stop _ ht | halt _ _ _ _ ht | fetchFault _ _ _ ht | decodeFault _ _ _ _ _ _ ht => subst ht; exact hs
  | execute _ _ _ _ _ _ hexec => exact exec_memoryInv (s := s.sampleStop) hs hexec

/-! ### A store, then a load (20_memory.md R58) -/

/-- A store of n bytes that goes through is read back by the load of n bytes there. -/
theorem State.load_of_memWrite {s t : State} {a : Word} (n : Nat) {v : BitVec (8 * n)} (hwf : s.mem.wf)
    (h : s.memWrite a (Bits.leBytes n v) = some t) : (t.memRead a n).map (Bits.ofLE (8 * n)) = some v := by
  obtain ⟨hin, rfl⟩ := (s.memWrite_eq_some t a _).mp h
  rw [Bits.leBytes_length] at hin
  exact (State.load_eq_some _ a n _ rfl v).mpr ⟨hin, fun k hk => (State.read_stored_same hwf a v hk).symm⟩

/-! ### Inspection (10_state.md R42) -/

/-- A register file is what its registers read as. -/
theorem State.regs_eq_of_readReg {s t : State} (h : ∀ r, t.readReg r = s.readReg r) : t.regs = s.regs := by
  refine Vector.ext fun j hj => ?_
  have hr : (⟨j + 1, by omega⟩ : Reg) ≠ 0 := fun e => by simp [Fin.ext_iff] at e
  have hreg := h ⟨j + 1, by omega⟩
  rwa [t.readReg_of_ne hr hj, s.readReg_of_ne hr hj] at hreg

/-- Memories inside the same capacity that show the same bytes read alike everywhere: above it both read the
background. -/
theorem State.read_eq_of_byteAt {s t : State} (hs : s.mem.within s.memSize) (ht : t.mem.within t.memSize)
    (hsize : t.memSize = s.memSize) (h : ∀ a, t.byteAt a = s.byteAt a) (a : Nat) : t.mem.read a = s.mem.read a := by
  by_cases ha : a < s.memSize
  · simpa [State.byteAt, hsize, ha] using h a
  · rw [Memory.read_of_within hs (by omega), Memory.read_of_within ht (by omega)]

theorem State.current_of_wordAt {s : State} {w : Word} (hin : s.pc.toNat + 3 < s.memSize) (hw : WordAt s s.pc.toNat w) :
    s.current = some (w, s.pc) := by
  simp [State.current, (s.currentWord_eq_some w).mpr ⟨hin, fun k hk => (hw k hk).symm⟩]

theorem State.current_eq_none {s : State} (h : s.memSize ≤ s.pc.toNat + 3) : s.current = none := by
  simp [State.current, s.currentWord_eq_none.mpr (by omega : s.memSize < s.pc.toNat + 4)]

/-! ### The obligations -/

/-- Settles O12: of all steps only a store in bounds writes memory, and it keeps the form and the capacity. -/
theorem stepKeepsMemoryCanonical : Obligations.StepKeepsMemoryCanonical :=
  fun _ _ => step_memoryInv

/-- Settles O10: the image is written over the background up to the capacity. -/
theorem resetTakesTheParameters : Obligations.ResetTakesTheParameters := by
  refine fun p stop hp => ⟨fun i hi => State.readReg_of_ne _ hi _, fun a ha => ?_⟩
  rw [State.resetWith_mem]
  split
  case isTrue h =>
    obtain ⟨k, rfl⟩ := Nat.exists_eq_add_of_le h.1
    simp only [Nat.add_sub_cancel_left]
    exact Memory.read_init_image hp (by omega) ha
  case isFalse h => exact Memory.read_init_other (by omega)

/-- Settles O11: the image is cut at the capacity; the named constant is reset with parameters a run may have. -/
theorem resetMeetsTheInvariants : Obligations.ResetMeetsTheInvariants :=
  ⟨fun _ stop hp => State.resetWith_memoryInv hp stop, fun _ _ heven => heven,
    State.resetWith_memoryInv Params.default_wf [], rfl, rfl⟩

/-- Settles O14: an access is refused exactly when its last byte is not below MEM_SIZE. -/
theorem boundsCheckCoversTheWholeAccess : Obligations.BoundsCheckCoversTheWholeAccess := by
  intro s a n hn
  have hpos : 0 < n := by
    simp only [List.mem_cons, List.not_mem_nil, or_false] at hn
    omega
  refine ⟨?_, fun bytes hbytes => ?_, fun hsize => (s.memRead_eq_none a n).mpr (by omega)⟩
  · rw [Option.isSome_iff_ne_none, Ne, s.memRead_eq_none]
    omega
  · rw [Option.isSome_iff_ne_none, Ne, s.memWrite_eq_none, hbytes]
    omega

/-- Settles O15: the loaded value is the one whose bytes are memory's; a single byte is its own byte 0. -/
theorem memReadIsLittleEndian : Obligations.MemReadIsLittleEndian := by
  refine fun s a => ⟨fun v => ?_, s.loadHalf_eq_some a, s.loadWord_eq_some a⟩
  have hbyte : (∀ k < 1, v.extractLsb' (8 * k) 8 = s.mem.read (a.toNat + k)) ↔ v = s.mem.read a.toNat := by
    simp
  rw [s.loadByte_eq_some, hbyte, Nat.succ_le_iff]

/-- Settles O17: each width stores the bytes of its value, and the load puts them together again. -/
theorem storeThenLoadReturnsTheValue : Obligations.StoreThenLoadReturnsTheValue :=
  fun _ _ _ hwf => ⟨fun _ => State.load_of_memWrite 1 hwf, fun _ => State.load_of_memWrite 2 hwf,
    fun _ => State.load_of_memWrite 4 hwf⟩

/-- Settles O19, entry by entry: each is at the least address that does not read the background. -/
theorem canonicalMemoriesWithEqualBytesAreEqual : Obligations.CanonicalMemoriesWithEqualBytesAreEqual :=
  fun _ _ => Memory.eq_of_read

/-- Settles O52: the host reads each component; registers are determined by their reads, and canonical memories by
their bytes. -/
theorem inspectionReadsTheWholeState : Obligations.InspectionReadsTheWholeState := by
  refine ⟨fun s => ⟨s.registers_getElem, fun _ => rfl, s.faultRecord_eq_some, fun _ => State.current_of_wordAt,
    State.current_eq_none⟩, ?_⟩
  rintro s t ⟨hswf, hswithin, -⟩ ⟨htwf, htwithin, -⟩ ⟨hsize, hhalt, hstop⟩ hregisters hpc hbytes hrunState
  have hregs : t.regs = s.regs := State.regs_eq_of_readReg fun r => by
    rw [← t.registers_getElem r, ← s.registers_getElem r, hregisters]
  have hmem : t.mem = s.mem := Memory.eq_of_read htwf hswf (State.read_eq_of_byteAt hswithin htwithin hsize hbytes)
  cases s
  cases t
  simp_all

end Sys2Proof.Machine
end
section
/-! All instructions: that each runs, and what it leaves alone; JALR and the no-ops (30_encoding.md R104, 44_jump.md
R192, 45_system.md). -/

namespace Sys2Proof.Machine

/-! ### Every instruction answers a next state -/

theorem execLoad_next {n : Nat} (load : State → Word → Option (BitVec n)) (extend : BitVec n → Word) (rd rs1 : Reg)
    (imm : Word) (s : State) : ∃ t, execLoad load extend rd rs1 imm s = .next t := by
  rcases execLoad_cases load extend rd rs1 imm s with ⟨raw, -, h⟩ | ⟨-, h⟩
  · exact ⟨_, h⟩
  · exact ⟨_, h⟩

theorem execStore_next {n : Nat} (store : State → Word → BitVec n → Option State) (rs1 rs2 : Reg) (imm : Word)
    (s : State) : ∃ t, execStore store rs1 rs2 imm s = .next t := by
  rcases execStore_cases store rs1 rs2 imm s with ⟨t, -, h⟩ | ⟨-, h⟩
  · exact ⟨_, h⟩
  · exact ⟨_, h⟩

/-! ### What an instruction leaves alone (10_state.md R32) -/

section Frame

variable {i : Instr} {s t : State} (h : exec i s = .next t)
include h

theorem exec_readReg_of_ne_rd {r : Reg} (hr : i.rd ≠ some r) : t.readReg r = s.readReg r := by
  cases exec_cases h with
  | result rd v hrd _ _ _ _ ht =>
    have hne : r ≠ rd := fun e => hr (e ▸ hrd)
    simp [ht, hne]
  | jal rd imm hi ht | jalr rd rs1 imm hi ht =>
    have hne : r ≠ rd := fun e => hr (by rw [hi, e]; rfl)
    simp [ht, hne]
  | branch imm taken _ _ _ ht => subst ht; cases taken <;> rfl
  | store _ _ _ _ _ ht | noop _ ht | fault _ _ _ _ _ ht => subst ht; rfl

/-- A byte reads as before when it is outside the bytes of a store, or the instruction is none. -/
theorem exec_read_of_outside_store {a : Nat}
    (ha : ∀ ea n, isStore i = true → dataAccess s i = some (ea, n) → a < ea.toNat ∨ ea.toNat + n ≤ a) :
    t.mem.read a = s.mem.read a := by
  cases exec_cases h with
  | store ea bytes hstore hacc _ ht => subst ht; exact s.read_stored_other ea bytes (ha ea _ hstore hacc)
  | branch imm taken _ _ _ ht => subst ht; cases taken <;> rfl
  | result _ _ _ _ _ _ _ ht | jal _ _ _ ht | jalr _ _ _ _ ht | noop _ ht | fault _ _ _ _ _ ht =>
    simp [ht, State.dataFault]

end Frame

/-! ### The target of JALR (44_jump.md R192) -/

theorem State.jalrTarget_toNat (s : State) (rs1 : Reg) (imm : Word) :
    (s.jalrTarget rs1 imm).toNat = ((s.readReg rs1).toNat + imm.toNat) % 2 ^ 32 / 2 * 2 := by
  rw [State.jalrTarget, and_clearBit0, BitVec.toNat_add]

theorem State.jalrTarget_even (s : State) (rs1 : Reg) (imm : Word) : (s.jalrTarget rs1 imm).toNat % 2 = 0 := by
  rw [s.jalrTarget_toNat, Nat.mul_mod_left]

/-! ### The obligations -/

/-- Settles O32: a load and a store end in a commit or a data fault, every other instruction in its commit. -/
theorem everyInstructionRuns : Obligations.EveryInstructionRuns := by
  intro i s
  cases i with
  | lb | lh | lw | lbu | lhu => exact execLoad_next ..
  | sb | sh | sw => exact execStore_next ..
  | _ => exact ⟨_, rfl⟩

/-- Settles O33: each way an instruction can end writes at most its rd, the bytes of its store and the pc, or is a data
fault. -/
theorem effectsAreConfined : Obligations.EffectsAreConfined := by
  refine fun i s t h => ⟨exec_inputs h, fun _ => exec_readReg_of_ne_rd h, fun _ => exec_read_of_outside_store h, ?_⟩
  rcases exec_runState h with ⟨hkeep, -⟩ | ⟨ea, _, _, _, _, rfl⟩
  · exact .inl hkeep
  · exact .inr ⟨_, s.dataFault_only ea⟩

/-- Settles O29: JALR links and jumps to the sum with bit 0 cleared, computed before the link is written. -/
theorem jalrResults : Obligations.JalrResults :=
  ⟨Mnemonic.rowSelects .jalr, fun _ rs1 imm s => exec_links_of_jumpAndLink rfl (s.jalrTarget_toNat rs1 imm)⟩

/-- Settles O31: the three rows select their words, and each instruction only advances the pc. -/
theorem fenceEcallEbreakOnlyAdvance : Obligations.FenceEcallEbreakOnlyAdvance :=
  ⟨Mnemonic.rowSelects .fence, Mnemonic.rowSelects .ecall, Mnemonic.rowSelects .ebreak,
    fun _ _ _ s => ⟨_, rfl, s.setsPc_jumpTo _⟩, fun s => ⟨_, rfl, s.setsPc_jumpTo _⟩,
    fun s => ⟨_, rfl, s.setsPc_jumpTo _⟩⟩

end Sys2Proof.Machine
end

section
/-! The instruction a step runs, and the faults of a step (46_step_sequencer.md R211, 60_exceptions.md R230 to R237). -/

namespace Sys2Proof.Machine

/-! ### A step that runs its instruction -/

theorem step_of_decode_ok {s : State} {w : Word} {i : Instr} (hfetches : Fetches s w) (hhalt : s.haltMatches w = false)
    (hdecode : decode w = .ok i) : step s = exec i s.sampleStop := by
  obtain ⟨hrun, hstop, hfetch⟩ := (fetches_iff s w).mp hfetches
  rw [step_of_decode hrun hstop hfetch hhalt]
  simp only [decodeAndExecute, hdecode]

/-- Sampling STOP does not move an access. -/
@[simp] theorem dataAccess_sampleStop (s : State) (i : Instr) : dataAccess s.sampleStop i = dataAccess s i := by
  cases i <;> rfl

/-! ### The faults of a step, each with its record (60_exceptions.md R230) -/

theorem step_of_misaligned_pc {s : State} (hrun : s.runState = .running) (hstop : s.stopNow = false)
    (hpc : s.pc.toNat % 4 ≠ 0) : step s = .next (s.sampleStop.raise .misalignedFetch s.pc none) :=
  step_of_fetchError hrun hstop ((s.fetch_eq_error _).mpr (.inl ⟨hpc, rfl⟩))

theorem step_of_pc_outOfBounds {s : State} (hrun : s.runState = .running) (hstop : s.stopNow = false)
    (hpc : s.pc.toNat % 4 = 0) (hout : s.memSize ≤ s.pc.toNat + 3) :
    step s = .next (s.sampleStop.raise .outOfBounds s.pc none) :=
  step_of_fetchError hrun hstop ((s.fetch_eq_error _).mpr (.inr ⟨hpc, by omega, rfl⟩))

theorem step_of_illegal_word {s : State} {w : Word} (hfetches : Fetches s w) (hhalt : s.haltMatches w = false)
    (hrow : ∀ m : Mnemonic, w &&& m.mask ≠ m.matchWord) :
    step s = .next (s.sampleStop.raise .decodeError s.pc (some w)) := by
  obtain ⟨hrun, hstop, hfetch⟩ := (fetches_iff s w).mp hfetches
  obtain ⟨e, hdecode⟩ := decode_error_of_no_row hrow
  exact (step_of_decode hrun hstop hfetch hhalt).trans (decodeAndExecute_of_error hdecode)

/-- An access has at least one byte. -/
theorem dataAccess_pos {s : State} {i : Instr} {ea : Word} {n : Nat} (h : dataAccess s i = some (ea, n)) : 0 < n := by
  cases i <;> cases h <;> decide

/-- A data fault records the fetched word, which is the current instruction (notes/assumptions/9.md). -/
theorem step_of_access_outOfBounds {s : State} {w : Word} {i : Instr} {ea : Word} {n : Nat} (hfetches : Fetches s w)
    (hhalt : s.haltMatches w = false) (hdecode : decode w = .ok i) (hacc : dataAccess s i = some (ea, n))
    (hout : s.memSize ≤ ea.toNat + n - 1) : step s = .next (s.sampleStop.raise .outOfBounds ea (some w)) := by
  have hpos := dataAccess_pos hacc
  obtain ⟨-, -, hfetch⟩ := (fetches_iff s w).mp hfetches
  rw [step_of_decode_ok hfetches hhalt hdecode,
    exec_of_access_outOfBounds (n := n) (by rwa [dataAccess_sampleStop]) (by rw [State.sampleStop_memSize]; omega),
    State.dataFault, State.currentWord_sampleStop, State.currentWord_of_fetch hfetch]

/-! ### What a step that faults has met -/

/-- Only the rows of the table raise a fault: the fetch its two, the decoder its one, an instruction its data access. -/
theorem step_faulted_cases {s t : State} {r : FaultRecord} (h : step s = .next t) (ht : t.runState = .faulted r) :
    s.stopNow = false ∧
      ((s.pc.toNat % 4 ≠ 0 ∧ r = ⟨.misalignedFetch, s.pc, s.pc, none⟩) ∨
       (s.pc.toNat % 4 = 0 ∧ s.memSize ≤ s.pc.toNat + 3 ∧ r = ⟨.outOfBounds, s.pc, s.pc, none⟩) ∨
       (∃ w, Fetches s w ∧ s.haltMatches w = false ∧
         (((∀ m : Mnemonic, w &&& m.mask ≠ m.matchWord) ∧ r = ⟨.decodeError, s.pc, s.pc, some w⟩) ∨
          (∃ i ea n, decode w = .ok i ∧ dataAccess s i = some (ea, n) ∧ s.memSize ≤ ea.toNat + n - 1 ∧
            r = ⟨.outOfBounds, s.pc, ea, some w⟩)))) := by
  obtain ⟨hrun, hcase⟩ := step_cases h
  cases hcase with
  | stop _ ht' | halt _ _ _ _ ht' => simp [ht'] at ht
  | fetchFault k hstop hfetch ht' =>
    obtain rfl : ⟨k, s.pc, s.pc, none⟩ = r := by simpa [ht'] using ht
    rcases (s.fetch_eq_error k).mp hfetch with ⟨hpc, rfl⟩ | ⟨hpc, hout, rfl⟩
    · exact ⟨hstop, .inl ⟨hpc, rfl⟩⟩
    · exact ⟨hstop, .inr (.inl ⟨hpc, by omega, rfl⟩)⟩
  | decodeFault w e hstop hfetch hhalt hdecode ht' =>
    obtain rfl : ⟨.decodeError, s.pc, s.pc, some w⟩ = r := by simpa [ht'] using ht
    have hrow := (decode_error_iff_no_row w).mpr ⟨e, hdecode⟩
    exact ⟨hstop, .inr (.inr ⟨w, (fetches_iff s w).mpr ⟨hrun, hstop, hfetch⟩, hhalt, .inl ⟨hrow, rfl⟩⟩)⟩
  | execute w i hstop hfetch hhalt hdecode hexec =>
    rcases exec_runState hexec with ⟨hkeep, -⟩ | ⟨ea, n, -, hacc, hout, rfl⟩
    · exact absurd (ht.symm.trans (hkeep.trans hrun)) nofun
    · obtain rfl : ⟨.outOfBounds, s.pc, ea, some w⟩ = r := by
        simpa [State.dataFault, State.currentWord_of_fetch hfetch] using ht
      rw [dataAccess_sampleStop] at hacc
      have hout' : s.memSize ≤ ea.toNat + n - 1 := Nat.le_sub_one_of_lt hout
      exact ⟨hstop, .inr (.inr ⟨w, (fetches_iff s w).mpr ⟨hrun, hstop, hfetch⟩, hhalt,
        .inr ⟨i, ea, n, hdecode, hacc, hout', rfl⟩⟩)⟩

/-! ### The obligations -/

/-- Settles O44: a step that faults has met a row of the table, and each row makes the step raise its record. -/
theorem faultsAreExactlyTheTable : Obligations.FaultsAreExactlyTheTable := by
  refine fun s t r hrun h => ⟨step_faulted_cases h, ?_⟩
  have hfaulted {k : FaultKind} {a : Word} {w : Option Word} (hraise : step s = .next (s.sampleStop.raise k a w)) :
      t.runState = .faulted ⟨k, s.pc, a, w⟩ := by
    obtain rfl := Host.Outcome.next.inj (h.symm.trans hraise)
    rfl
  rintro ⟨hstop, ⟨hpc, rfl⟩ | ⟨hpc, hout, rfl⟩ | ⟨w, hfetches, hhalt, hrow⟩⟩
  · exact hfaulted (step_of_misaligned_pc hrun hstop hpc)
  · exact hfaulted (step_of_pc_outOfBounds hrun hstop hpc hout)
  · rcases hrow with ⟨hnone, rfl⟩ | ⟨i, ea, n, hdecode, hacc, hout, rfl⟩
    · exact hfaulted (step_of_illegal_word hfetches hhalt hnone)
    · exact hfaulted (step_of_access_outOfBounds hfetches hhalt hdecode hacc hout)

/-- Settles O45: no row of the fault table has this kind. -/
theorem unsupportedInstructionIsNeverRaised : Obligations.UnsupportedInstructionIsNeverRaised := by
  intro s t r h ht
  obtain ⟨-, hrow⟩ := step_faulted_cases h ht
  rcases hrow with ⟨-, rfl⟩ | ⟨-, -, rfl⟩ | ⟨w, -, -, ⟨-, rfl⟩ | ⟨i, ea, n, -, -, -, rfl⟩⟩ <;> exact nofun

/-- Settles O43: the instruction is a data fault, whose word is the fetched one. -/
theorem outOfBoundsAccessFaults : Obligations.OutOfBoundsAccessFaults :=
  fun s _ _ _ _ hfetches hhalt hdecode hacc hout =>
    ⟨_, step_of_access_outOfBounds hfetches hhalt hdecode hacc hout, s.sampleStop_raise_only _ _ _⟩

/-- Settles O35: past the fetch and the HALT test the step executes what it decodes. -/
theorem stepRunsTheDecodedInstruction : Obligations.StepRunsTheDecodedInstruction :=
  fun _ _ _ => step_of_decode_ok

/-- Settles O41: the bounds check of an aligned fetch fails, and the fault is taken. -/
theorem outOfBoundsFetchFaults : Obligations.OutOfBoundsFetchFaults :=
  fun s hrun hstop hpc hout => ⟨_, step_of_pc_outOfBounds hrun hstop hpc hout, s.sampleStop_raise_only _ _ _⟩

end Sys2Proof.Machine
end

section
/-! The pc: it stays even, and a bad target faults at the next fetch (10_state.md R28, 43_branch.md R187, 44_jump.md
R193, 60_exceptions.md R232). -/

namespace Sys2Proof.Machine

/-! ### The pc stays even (10_state.md R28) -/

theorem toNat_add_even {a b : Word} (ha : a.toNat % 2 = 0) (hb : b.toNat % 2 = 0) : (a + b).toNat % 2 = 0 := by
  rw [BitVec.toNat_add]
  omega

/-- The offset of a well-formed branch or JAL is even (30_encoding.md R89). -/
theorem imm_even_of_wf {i : Instr} {imm : Word} (hwf : i.wf = true)
    (hformat : i.mnemonic.format = .B ∨ i.mnemonic.format = .J) (himm : i.imm = some imm) : imm.toNat % 2 = 0 := by
  cases i with
  | jal | beq | bne | blt | bge | bltu | bgeu => cases himm; exact (of_decide_eq_true hwf).2.2
  | _ => simp [Instr.mnemonic, Mnemonic.format] at hformat

theorem exec_evenPc {i : Instr} {s t : State} (hwf : i.wf = true) (hs : EvenPc s) (h : exec i s = .next t) :
    EvenPc t := by
  have hnext : (s.pc + 4).toNat % 2 = 0 := toNat_add_even hs (by decide)
  have htarget {imm : Word} (himm : imm.toNat % 2 = 0) : (s.pcRelative imm).toNat % 2 = 0 := toNat_add_even hs himm
  cases exec_cases h with
  | result _ _ _ _ _ _ _ ht | store _ _ _ _ _ ht | noop _ ht => subst ht; simpa [EvenPc, State.nextPc] using hnext
  | jal rd imm hi ht => subst hi ht; exact htarget (imm_even_of_wf hwf (.inr rfl) rfl)
  | jalr rd rs1 imm hi ht => subst ht; exact s.jalrTarget_even rs1 imm
  | branch imm taken hformat himm _ ht =>
    subst ht
    cases taken
    · exact hnext
    · exact htarget (imm_even_of_wf hwf (.inl hformat) himm)
  | fault _ _ _ _ _ ht => subst ht; exact hs

/-- What a step executes is decoded, so its offsets are even; a step that stops the machine keeps the pc. -/
theorem step_evenPc {s t : State} (hs : EvenPc s) (h : step s = .next t) : EvenPc t := by
  by_cases ht : t.runState = .running
  · obtain ⟨w, i, -, hdecode, hexec⟩ := step_running_commits h ht
    exact exec_evenPc (wf_of_decode hdecode) (s := s.sampleStop) hs hexec
  · rwa [EvenPc, (step_stop_onlyRunState h ht).pc]

/-! ### Jumps and branches, and their targets (43_branch.md R187, 44_jump.md R193) -/

section Jump

variable {i : Instr} {s t : State} (hi : i.mnemonic ∈ [.jal, .jalr, .beq, .bne, .blt, .bge, .bltu, .bgeu])
  (h : exec i s = .next t)
include hi

theorem dataAccess_of_jump_or_branch (s : State) : dataAccess s i = none := by
  cases i with
  | jal | jalr | beq | bne | blt | bge | bltu | bgeu => rfl
  | _ => simp [Instr.mnemonic] at hi

include h

theorem exec_runState_of_jump_or_branch : t.runState = s.runState := by
  rcases exec_runState h with ⟨hkeep, -⟩ | ⟨ea, n, -, hacc, -⟩
  · exact hkeep
  · simp [dataAccess_of_jump_or_branch hi] at hacc

/-- A jump that has a destination writes the link there; a branch has none. -/
theorem exec_link_of_jump_or_branch {rd : Reg} (hne : rd ≠ 0) (hrd : i.rd = some rd) : t.readReg rd = s.pc + 4 := by
  cases exec_cases h with
  | jal rd' imm hi' ht | jalr rd' rs1 imm hi' ht =>
    subst hi' ht
    cases hrd
    simp [hne, State.linkValue]
  | branch imm taken hformat =>
    cases i <;> simp [Instr.mnemonic, Mnemonic.format, Instr.rd] at hformat hrd
  | result rd' v _ hpc hjalr => cases i <;> simp [Instr.mnemonic, Mnemonic.format] at hi hpc hjalr
  | store ea bytes _ hacc | fault ea n _ hacc => simp [dataAccess_of_jump_or_branch hi] at hacc
  | noop hnoop => rcases hnoop with hm | hm | hm <;> simp [hm] at hi

end Jump

/-- The next instruction's address is a multiple of 4 when the pc is. -/
theorem toNat_add_four_mod {a : Word} (h : a.toNat % 4 = 0) : (a + 4).toNat % 4 = 0 := by
  rw [BitVec.toNat_add, show (4 : Word).toNat = 4 from rfl]
  omega

/-! ### The obligations -/

/-- Settles O13: pc + 4, the offsets of decoded branches and jumps and the target of JALR are all even. -/
theorem stepKeepsThePcEven : Obligations.StepKeepsThePcEven := by
  intro s t hs h
  have ht : EvenPc t := step_evenPc hs h
  exact ⟨ht, fun _ => by omega⟩

/-- Settles O30: a jump or branch keeps Running, so the next step fetches at the target, and the fetch faults. -/
theorem badTargetsFaultAtTheNextFetch : Obligations.BadTargetsFaultAtTheNextFetch := by
  intro s t i hrun hstop hi h
  have ht : t.runState = .running := (exec_runState_of_jump_or_branch hi h).trans hrun
  exact ⟨ht, fun _ => exec_link_of_jump_or_branch hi h,
    fun hpc => ⟨_, step_of_misaligned_pc ht hstop hpc, t.sampleStop_raise_only _ _ _⟩,
    fun hpc hout => ⟨_, step_of_pc_outOfBounds ht hstop hpc hout, t.sampleStop_raise_only _ _ _⟩⟩

/-- Settles O40: the fetch raises the fault; only the commit of a branch or jump leaves pc + 4; the one fault of an
instruction is OutOfBounds. -/
theorem misalignedFetchComesFromTheFetch : Obligations.MisalignedFetchComesFromTheFetch := by
  refine ⟨fun s hrun hstop hpc => ⟨_, step_of_misaligned_pc hrun hstop hpc, s.sampleStop_raise_only _ _ _⟩,
    fun s t hpc h ht => ?_, fun i s t r hrun h ht => ?_⟩
  · have hnext : t.pc ≠ s.pc + 4 := fun e => ht (e ▸ toNat_add_four_mod hpc)
    have heven : EvenPc t := step_evenPc (by omega) h
    have hrun : t.runState = .running := by
      by_contra hstopped
      exact ht ((step_stop_onlyRunState h hstopped).pc ▸ hpc)
    obtain ⟨w, i, hfetches, hdecode, hexec⟩ := step_running_commits h hrun
    refine ⟨by omega, hrun, w, i, hfetches, hdecode, ?_, hnext⟩
    by_contra hi
    exact hnext (exec_pc_sequential (s := s.sampleStop) hexec hrun hi)
  · rcases exec_runState h with ⟨hkeep, -⟩ | ⟨ea, _, _, _, _, rfl⟩
    · exact absurd (ht.symm.trans (hkeep.trans hrun)) nofun
    · cases ht
      exact nofun

end Sys2Proof.Machine
end

section
/-! Runs: STOP, HALT, the inputs, and the end of a run (46_step_sequencer.md R213, R214, R218). -/

namespace Sys2Proof.Machine

/-! ### Runs -/

theorem reaches_succ_iff (n : Nat) (s t : State) : Reaches (n + 1) s t ↔ ∃ u, step s = .next u ∧ Reaches n u t := by
  simp only [Reaches, Host.Core.run, show core.step s = step s from rfl]
  cases step s <;> simp

/-- A run goes on by a step at its end. -/
theorem reaches_snoc {n : Nat} {s t u : State} (h : Reaches n s t) (ht : step t = .next u) : Reaches (n + 1) s u := by
  induction n generalizing s with
  | zero =>
    obtain rfl := Host.Outcome.next.inj h
    exact (reaches_succ_iff 0 s u).mpr ⟨u, ht, rfl⟩
  | succ n ih =>
    obtain ⟨v, hv, hrest⟩ := (reaches_succ_iff n s t).mp h
    exact (reaches_succ_iff (n + 1) s u).mpr ⟨v, hv, ih hrest⟩

/-- A step keeps the parameters and takes one bit of STOP. -/
theorem step_inputs {s t : State} (h : step s = .next t) :
    t.memSize = s.memSize ∧ t.halt = s.halt ∧ t.stop = s.stop.tail := by
  obtain ⟨-, hcase⟩ := step_cases h
  cases hcase with
  | stop _ ht | halt _ _ _ _ ht | fetchFault _ _ _ ht | decodeFault _ _ _ _ _ _ ht => subst ht; exact ⟨rfl, rfl, rfl⟩
  | execute _ _ _ _ _ _ hexec => exact exec_inputs hexec

theorem reaches_inputs {n : Nat} {s t : State} (h : Reaches n s t) :
    t.memSize = s.memSize ∧ t.halt = s.halt ∧ t.stop = s.stop.drop n := by
  induction n generalizing s with
  | zero =>
    obtain rfl := Host.Outcome.next.inj h
    exact ⟨rfl, rfl, rfl⟩
  | succ n ih =>
    obtain ⟨u, hu, hrest⟩ := (reaches_succ_iff n s t).mp h
    obtain ⟨hsize, hhalt, hstop⟩ := step_inputs hu
    simpa [hsize, hhalt, hstop] using ih hrest

theorem step_ne_next_of_not_running {s : State} (h : s.runState ≠ .running) (t : State) : step s ≠ .next t :=
  fun hstep => h (step_cases hstep).1

/-- Halting changes the run state; of the inputs only STOP has lost its bit. -/
theorem State.sampleStop_enterHalted_only (s : State) : OnlyRunState s s.sampleStop.enterHalted .halted :=
  ⟨rfl, fun _ => rfl, rfl, fun _ => rfl, rfl, rfl⟩

/-! ### The obligations -/

/-- Settles O38: n steps take the n zeros, so the one that is left halts the next step. -/
theorem stopGivesAStepBudget : Obligations.StopGivesAStepBudget := by
  intro n s t hstop hreach ht
  obtain ⟨-, -, hdrop⟩ := reaches_inputs hreach
  have hlast : t.stop = [true] := by rw [hdrop, hstop, List.drop_left' List.length_replicate]
  exact ⟨_, reaches_snoc hreach (step_of_stop ht (by simp [State.stopNow, hlast])), t.sampleStop_enterHalted_only,
    by simp [hlast]⟩

/-- Settles O39: after the fetch the pattern halts the step; without a pattern the step commits or faults; a pc that
cannot be fetched faults before the test. -/
theorem haltPatternStopsBeforeDecode : Obligations.HaltPatternStopsBeforeDecode := by
  refine ⟨fun s w hfetches hpattern => ?_, fun s t hnone hstop h ht => ?_, fun s hrun hstop hpc => ?_⟩
  · obtain ⟨hrun, hstop, hfetch⟩ := (fetches_iff s w).mp hfetches
    exact ⟨_, step_of_halt hrun hstop hfetch ((s.haltMatches_eq_true w).mpr hpattern), s.sampleStop_enterHalted_only⟩
  · obtain ⟨hrun, hcase⟩ := step_cases h
    cases hcase with
    | stop hset => simp [hstop] at hset
    | halt w _ _ hhalt => simp [State.haltMatches, hnone] at hhalt
    | fetchFault _ _ _ ht' | decodeFault _ _ _ _ _ _ ht' => simp [ht'] at ht
    | execute w i _ _ _ _ hexec =>
      rcases exec_runState hexec with ⟨hkeep, -⟩ | ⟨ea, _, _, _, _, rfl⟩
      · simp [hkeep, hrun] at ht
      · simp [State.dataFault] at ht
  · by_cases haligned : s.pc.toNat % 4 = 0
    · exact ⟨_, _, step_of_pc_outOfBounds hrun hstop haligned (hpc.resolve_left (not_not.mpr haligned)), rfl⟩
    · exact ⟨_, _, step_of_misaligned_pc hrun hstop haligned, rfl⟩

/-- Settles O48, by the inputs of a step and induction on the run. -/
theorem parametersStayAndStopIsTaken : Obligations.ParametersStayAndStopIsTaken :=
  ⟨fun _ _ => step_inputs, fun _ _ _ => reaches_inputs⟩

/-- Settles O37: the step samples STOP first, and halting changes only the run state. -/
theorem stopHaltsBeforeTheFetch : Obligations.StopHaltsBeforeTheFetch := by
  intro s rest hrun hstop
  exact ⟨_, step_of_stop hrun (by simp [State.stopNow, hstop]), s.sampleStop_enterHalted_only, by simp [hstop]⟩

/-- Settles O47: a step starts in Running only, and the other states stop under their own names. -/
theorem noStepAfterTheEnd : Obligations.NoStepAfterTheEnd := by
  refine fun s hs => ⟨step_ne_next_of_not_running hs, fun n t hreach => ?_, fun h => ?_, fun r h => ?_⟩
  · obtain ⟨u, hu, -⟩ := (reaches_succ_iff n s t).mp hreach
    exact step_ne_next_of_not_running hs u hu
  · simp [step, sequencerStep, h]
  · simp [step, sequencerStep, h]

end Sys2Proof.Machine
end

section
/-! The fetch of a word that was placed or stored (20_memory.md R64, 10_state.md R40). -/

namespace Sys2Proof.Machine

/-! ### Words in memory and the fetch (20_memory.md R64) -/

theorem State.fetch_of_wordAt {s : State} {w : Word} (haligned : s.pc.toNat % 4 = 0)
    (hin : s.pc.toNat + 3 < s.memSize) (hw : WordAt s s.pc.toNat w) : s.fetch = .ok w :=
  (s.fetch_eq_ok w).mpr ⟨haligned, (s.loadWord_eq_some s.pc w).mpr ⟨hin, fun k hk => (hw k hk).symm⟩⟩

/-- The bytes of a table word are those of the word the decoder sees. -/
theorem decode_of_decodeTableWord {nbits w : Nat} {i : Instr} (h : decodeTableWord nbits w = some i) :
    decode (BitVec.ofNat 32 (w % 2 ^ nbits)) = .ok i := by
  generalize hv : BitVec.ofNat 32 (w % 2 ^ nbits) = v at *
  have hbytes : decodeBytes (Bits.leBytes 4 v) = (decode v).map fun i => (i, []) :=
    congrArg (fun u => (decode u).map fun i => (i, [])) (Bits.ofLE_leBytes 32 4 rfl v)
  simp only [decodeTableWord, hv, hbytes] at h
  cases hd : decode v <;> simp [hd, Except.map] at h ⊢
  exact h

/-- Inside memory the placing of a word is a store at the pc. -/
theorem State.withFetchWord_eq_stored {s : State} (hin : s.pc.toNat + 3 < s.memSize) (nbits w : Nat) :
    s.withFetchWord nbits w = s.stored s.pc (Bits.leBytes 4 (BitVec.ofNat 32 (w % 2 ^ nbits))) := by
  have hstore := (s.memWrite_eq_some _ s.pc (Bits.leBytes 4 (BitVec.ofNat 32 (w % 2 ^ nbits)))).mpr
    ⟨by rw [Bits.leBytes_length]; omega, rfl⟩
  simp only [State.withFetchWord, placeWord, State.storeWord, hstore, Option.getD_some]

/-! ### The obligations -/

/-- Settles O36: the placing is a store at the pc, so the step fetches the placed word and runs it. -/
theorem placedWordRunsNext : Obligations.PlacedWordRunsNext := by
  intro s nbits w i hwf hrun hstop haligned hin hdecode hhalt
  rw [State.withFetchWord_eq_stored hin]
  refine ⟨step_of_decode_ok ⟨hrun, hstop, haligned, hin, fun k => ?_⟩ hhalt (decode_of_decodeTableWord hdecode),
    fun b hb => s.read_stored_other s.pc _ (by rwa [Bits.leBytes_length]), fun _ => rfl, rfl, rfl, rfl, rfl, rfl⟩
  exact State.read_stored_same hwf s.pc _

/-- Settles O49: the step is the store, whose bytes the fetch at their address puts together again. -/
theorem storeIsSeenByTheNextFetch : Obligations.StoreIsSeenByTheNextFetch := by
  intro s t w rs1 rs2 imm hwf hfetches hhalt hdecode haligned hin h
  have hexec : exec (.sw rs1 rs2 imm) s.sampleStop = _ := exec_of_store_inBounds (n := 4) rfl rfl rfl hin
  obtain rfl := Host.Outcome.next.inj (h.symm.trans ((step_of_decode_ok hfetches hhalt hdecode).trans hexec))
  exact State.fetch_of_wordAt haligned hin fun k => State.read_stored_same hwf _ (s.readReg rs2)

end Sys2Proof.Machine
end
section
/-! The expansions of `li` and `la` (30_encoding.md R107): an upper immediate and the rest of the value. -/

namespace Sys2Proof.Assembler

/-! ### The split of a value -/

/-- The upper part is the value rounded to a multiple of 4096. -/
theorem hi_toNat (imm : Word) : (hi imm).toNat = (imm.toNat + 2048) % 2 ^ 32 / 4096 * 4096 := by
  have hdiv : ((imm + 0x800#32).extractLsb' 12 20).toNat = (imm.toNat + 2048) % 2 ^ 32 / 4096 := by
    rw [BitVec.extractLsb'_toNat, Nat.shiftRight_eq_div_pow, BitVec.toNat_add, show (0x800#32).toNat = 2048 from rfl]
    omega
  rw [hi, BitVec.toNat_append, hdiv]
  simp [Nat.shiftLeft_eq]

/-- The low part is the signed value of the 12 low bits. -/
theorem lo_toInt (imm : Word) :
    (lo imm).toInt =
      if 2 * (imm.toNat % 4096) < 4096 then (imm.toNat % 4096 : Int) else (imm.toNat % 4096 : Int) - 4096 := by
  rw [lo, Bits.sext_toInt (by decide), BitVec.toInt_eq_toNat_cond]
  simp

/-- The two parts make the value again. -/
theorem hi_add_lo (imm : Word) : hi imm + lo imm = imm := by
  apply BitVec.eq_of_toNat_eq
  have hlo := lo_toInt imm
  rw [BitVec.toInt_eq_toNat_cond] at hlo
  rw [BitVec.toNat_add, hi_toNat]
  have := imm.isLt
  have := (lo imm).isLt
  split at hlo <;> split at hlo <;> omega

theorem immFitsU_hi (imm : Word) : immFitsU (hi imm) = true :=
  decide_eq_true (by rw [hi_toNat, Nat.mul_mod_left])

theorem immFits12_lo (imm : Word) : immFits12 (lo imm) = true := by
  rw [lo, immFits12, Bits.sext_toInt (by decide)]
  exact decide_eq_true ⟨BitVec.le_toInt _, BitVec.toInt_le⟩

end Sys2Proof.Assembler

namespace Sys2Proof.Machine

open Assembler

/-! ### Lists of instructions that build a value -/

/-- The run of the list puts v in x[rd], and no other register and no byte changes. -/
def Builds (is : List Instr) (s : State) (rd : Reg) (v : Word) : Prop :=
  ∃ t, execAll is s = .next t ∧ t.readReg rd = v ∧ (∀ r, r ≠ rd → t.readReg r = s.readReg r) ∧ SameMemory s t

section Builds

variable {i : Instr} {s : State} {rd : Reg} {v : Word} (hrd : rd ≠ 0)
include hrd

/-- One instruction that commits the value. -/
theorem builds_of_writeBack (h : exec i s = s.writeBack rd v) : Builds [i] s rd v := by
  obtain ⟨t, hexec, hwrites⟩ := exec_writesReg h
  exact ⟨t, by simp only [execAll, hexec], by simpa [hrd] using hwrites.dest, hwrites.regs, hwrites.mem⟩

/-- An instruction that commits a first part, then an ADDI of the rest to the same register. -/
theorem builds_of_writeBack_addi (h : exec i s = s.writeBack rd v) (rest : Word) :
    Builds [i, .addi rd rd rest] s rd (v + rest) := by
  obtain ⟨t, hexec, hwrites⟩ := exec_writesReg h
  have hpart : t.readReg rd = v := by simpa [hrd] using hwrites.dest
  have hadd : exec (.addi rd rd rest) t = t.writeBack rd (v + rest) := by rw [← hpart]; rfl
  obtain ⟨u, hrun, hvalue, hregs, hmem⟩ := builds_of_writeBack hrd hadd
  refine ⟨u, by simpa only [execAll, hexec] using hrun, hvalue, fun r hr => ?_, fun a => ?_⟩
  · rw [hregs r hr, hwrites.regs r hr]
  · rw [hmem a, hwrites.mem a]

/-- `li` in its three forms: a short value, one without a low part, and both parts. -/
theorem builds_li (imm : Word) (s : State) :
    Builds (expand (.li rd imm)) s rd imm ∧ ∀ i ∈ expand (.li rd imm), i.wf = true := by
  simp only [expand]
  split
  case isTrue hshort =>
    exact ⟨builds_of_writeBack hrd (congrArg (s.writeBack rd) (BitVec.zero_add imm)), by simpa [Instr.wf] using hshort⟩
  case isFalse =>
    split
    case isTrue hlo =>
      have hsum : hi imm = imm := by simpa [hlo] using hi_add_lo imm
      exact ⟨builds_of_writeBack hrd (congrArg (s.writeBack rd) hsum), by simpa [Instr.wf] using immFitsU_hi imm⟩
    case isFalse =>
      have hbuilds := builds_of_writeBack_addi (i := .lui rd (hi imm)) (s := s) hrd rfl (lo imm)
      rw [hi_add_lo] at hbuilds
      exact ⟨hbuilds, by simpa [Instr.wf] using ⟨immFitsU_hi imm, immFits12_lo imm⟩⟩

/-- `la` adds both parts of the distance to the pc of its first instruction. -/
theorem builds_la (off : Word) (s : State) :
    Builds (expand (.la rd off)) s rd (s.pc + off) ∧ ∀ i ∈ expand (.la rd off), i.wf = true := by
  have hbuilds := builds_of_writeBack_addi (i := .auipc rd (hi off)) (s := s) hrd rfl (lo off)
  rw [State.pcRelative, BitVec.add_assoc, hi_add_lo] at hbuilds
  exact ⟨hbuilds, by simpa [expand, Instr.wf] using ⟨immFitsU_hi off, immFits12_lo off⟩⟩

end Builds

/-! ### The obligations -/

/-- Settles O51: the parts of a value are in range and make it again, whichever form the expansion takes. -/
theorem liAndLaBuildTheirValue : Obligations.LiAndLaBuildTheirValue := by
  intro rd imm s hrd
  obtain ⟨⟨t, ht, hli, hregs, hmem⟩, hwf⟩ := builds_li hrd imm s
  obtain ⟨⟨u, hu, hla, hregs', hmem'⟩, hwf'⟩ := builds_la hrd imm s
  exact ⟨⟨t, ht, hli, hregs, hmem, hwf⟩, ⟨u, hu, hla, hregs', hmem', hwf'⟩⟩

end Sys2Proof.Machine
end
